-- ==== Sys2Proof/Word.lean ====
section
/-! DEFINITION. The word types of FSKMOD (spec/00_scope.md R7): every register and pin is an unsigned
bit vector whose bit 0 is the least significant, or a single bit. -/

namespace Sys2Proof

/-- One pin, or one one-bit register (R7). -/
abbrev Bit := Bool

/-- A value of the 6-bit frame counter, plain binary (R12, R68); the values 60 to 63 are
representable and unreachable (R65). -/
abbrev Phase := BitVec 6

/-- The 2-bit opacity code `op_code[1:0]` (R15). -/
abbrev OpacityCode := BitVec 2

/-- Format S, the stimulus word `S[4:0]` (R46). -/
abbrev Stimulus := BitVec 5

/-- Format C, the command header `H[3:0]` (R49). -/
abbrev Header := BitVec 4

/-- Format O, the response word `O[9:0]` (R47). -/
abbrev Response := BitVec 10

end Sys2Proof
end

