-- ==== Sys2Proof/Syntax.lean ====
section
/-! DEFINITION. The operations of FSKMOD: one constructor per row of spec/opcode_table.json (R51), and
the encoded forms they are read from (formats S, C and L, R45). -/

namespace Sys2Proof

/-- The nine operations of R51. The three cycle operations carry the pins of their stimulus word
(R46), the ignored ones too, so that an operation keeps every bit of its encoding. -/
inductive Instr where
  /-- RST, stimulus `1tvba` (R130). -/
  | rst (t v b a : Bit)
  /-- HOLD, stimulus `00vba` (R131). -/
  | hold (v b a : Bit)
  /-- TICK, stimulus `01vba` (R132): `v` = `src_valid`, `b` = `src_bit`, `a` = `amp_sel`. -/
  | tick (v b a : Bit)
  /-- SETOVR `b`, header `000b` (R114). -/
  | setovr (b : Bit)
  /-- CLROVR, header `0010` (R115). -/
  | clrovr
  /-- TOGAMP, header `0100` (R116). -/
  | togamp
  /-- ENQW `text`, header `0110` then the text, a list of character codes (R117, R49). -/
  | enqw (text : List Nat)
  /-- BER, header `1000` (R119). -/
  | ber
  /-- QUIT, header `1010` (R120). -/
  | quit
  deriving DecidableEq, Repr

/-- One posted command in format C: the 4-bit header, and the text that follows it in an ENQW. The
binary layout of the text is not fixed: "a model holds it as a list of naturals" (R49, U11). -/
structure Packet where
  header : Header
  text : List Nat
  deriving DecidableEq, Repr

/-- What the input collaborator can do between two clock cycles (R58, R59, R111). -/
inductive Action where
  /-- POST of a command in format C. -/
  | command (p : Packet)
  /-- A line was read (format L): its character codes without the terminator. -/
  | line (text : List Nat)
  /-- The amplitude key. -/
  | ampKey
  /-- The key of override `b`, mirroring the line `b`. -/
  | ovrKey (b : Bit)
  deriving DecidableEq, Repr

/-- What an operation is read from: the stimulus word of one clock cycle (format S) or a posted
command (format C) (R45). -/
inductive Encoded where
  | stimulus (w : Stimulus)
  | command (p : Packet)
  deriving DecidableEq, Repr

end Sys2Proof
end

