-- ==== Sys2Proof/Decode.lean ====
section
/-! DEFINITION. The decoders of formats S and C, both total (R52, R55), the encoder written from the
same rows of R51, and the reading of a bare opcode-table word. -/

namespace Sys2Proof

/-! Format S (R46). -/

/-- `S[4]`, `rst`. -/
def Stimulus.rst (w : Stimulus) : Bit := w.getLsbD 4
/-- `S[3]`, `tick`. -/
def Stimulus.tick (w : Stimulus) : Bit := w.getLsbD 3
/-- `S[2]`, `src_valid`. -/
def Stimulus.srcValid (w : Stimulus) : Bit := w.getLsbD 2
/-- `S[1]`, `src_bit`. -/
def Stimulus.srcBit (w : Stimulus) : Bit := w.getLsbD 1
/-- `S[0]`, `amp_sel`. -/
def Stimulus.ampSel (w : Stimulus) : Bit := w.getLsbD 0

/-- The stimulus word with the given pins, `rst` in bit 4 down to `amp_sel` in bit 0 (R46). -/
def packStimulus (r t v b a : Bit) : Stimulus :=
  BitVec.ofBool r ++ BitVec.ofBool t ++ BitVec.ofBool v ++ BitVec.ofBool b ++ BitVec.ofBool a

/-- Format S is decoded by `S[4:3]` alone: `1x` RST, `00` HOLD, `01` TICK (R46, R52). -/
def decodeStimulus (w : Stimulus) : Instr :=
  if Stimulus.rst w then
    .rst (Stimulus.tick w) (Stimulus.srcValid w) (Stimulus.srcBit w) (Stimulus.ampSel w)
  else if Stimulus.tick w then
    .tick (Stimulus.srcValid w) (Stimulus.srcBit w) (Stimulus.ampSel w)
  else
    .hold (Stimulus.srcValid w) (Stimulus.srcBit w) (Stimulus.ampSel w)

/-! Format C (R49). -/

/-- `H[3:1]`, the command opcode. -/
def Header.cop (h : Header) : Nat := (h.extractLsb' 1 3).toNat
/-- `H[0]`, the override bit of SETOVR; 0 in every other command. -/
def Header.bit (h : Header) : Bit := h.getLsbD 0

/-- The header with command opcode `cop` and low bit `b` (R49). -/
def packHeader (cop : BitVec 3) (b : Bit) : Header := cop ++ BitVec.ofBool b

/-- Format C (R49, R51). `none` is a reserved header, which the command processor treats as a command
with no effect (R55). The text belongs to ENQW alone and is not read for another header. -/
def decodeCommand (p : Packet) : Option Instr :=
  if Header.cop p.header = 0 then some (.setovr (Header.bit p.header))
  else if Header.bit p.header then none
  else if Header.cop p.header = 1 then some .clrovr
  else if Header.cop p.header = 2 then some .togamp
  else if Header.cop p.header = 3 then some (.enqw p.text)
  else if Header.cop p.header = 4 then some .ber
  else if Header.cop p.header = 5 then some .quit
  else none

/-- Decoding of either format. -/
def decode : Encoded → Option Instr
  | .stimulus w => some (decodeStimulus w)
  | .command p => decodeCommand p

/-- The encoding of each operation (R51). -/
def encode : Instr → Encoded
  | .rst t v b a => .stimulus (packStimulus true t v b a)
  | .hold v b a => .stimulus (packStimulus false false v b a)
  | .tick v b a => .stimulus (packStimulus false true v b a)
  | .setovr b => .command ⟨packHeader 0b000#3 b, []⟩
  | .clrovr => .command ⟨packHeader 0b001#3 false, []⟩
  | .togamp => .command ⟨packHeader 0b010#3 false, []⟩
  | .enqw text => .command ⟨packHeader 0b011#3 false, text⟩
  | .ber => .command ⟨packHeader 0b100#3 false, []⟩
  | .quit => .command ⟨packHeader 0b101#3 false, []⟩

/-! The opcode table (R51, spec/opcode_table.json), as rows of a format, a pattern and a mask. -/

/-- The format of a row: S (5 pins) or C (4-bit header). -/
inductive RowFormat where
  | s
  | c
  deriving DecidableEq, Repr

/-- One row of R51: the bits under `mask` are those of `pattern`. -/
structure OpcodeRow where
  mnemonic : String
  format : RowFormat
  pattern : Nat
  mask : Nat
  deriving DecidableEq, Repr

/-- The row selects the number `w` of its format's word. -/
def OpcodeRow.selects (r : OpcodeRow) (w : Nat) : Bool := (w &&& r.mask) == r.pattern

/-- The nine rows of R51, with the match and mask of the table. -/
def opcodeRows : List OpcodeRow :=
  [ ⟨"RST", .s, 0x10, 0x10⟩,
    ⟨"HOLD", .s, 0x00, 0x18⟩,
    ⟨"TICK", .s, 0x08, 0x18⟩,
    ⟨"SETOVR", .c, 0x0, 0xE⟩,
    ⟨"CLROVR", .c, 0x2, 0xF⟩,
    ⟨"TOGAMP", .c, 0x4, 0xF⟩,
    ⟨"ENQW", .c, 0x6, 0xF⟩,
    ⟨"BER", .c, 0x8, 0xF⟩,
    ⟨"QUIT", .c, 0xA, 0xF⟩ ]

/-- The row an operation stands for. -/
def Instr.mnemonic : Instr → String
  | .rst _ _ _ _ => "RST"
  | .hold _ _ _ => "HOLD"
  | .tick _ _ _ => "TICK"
  | .setovr _ => "SETOVR"
  | .clrovr => "CLROVR"
  | .togamp => "TOGAMP"
  | .enqw _ => "ENQW"
  | .ber => "BER"
  | .quit => "QUIT"

/-- The encoded form a bare table word of `nbits` bits is taken for. Formats S (5 bits) and C (4 bits)
are words of different agents and share the numbers 0 to 15; a bare number does not say its format.
DESIGN CHOICE (assumption log entry 2): a word of exactly 4 or 5 bits is of format C or S; otherwise
a number that is a command header of R51 is taken as that command (with the empty text), any other
number below 32 as a stimulus word. A number of 32 or more is a word of neither format. -/
def tableEncoded (nbits w : Nat) : Option Encoded :=
  if nbits = 4 then
    if w < 16 then some (.command ⟨BitVec.ofNat 4 w, []⟩) else none
  else if 32 ≤ w then none
  else if nbits = 5 then some (.stimulus (BitVec.ofNat 5 w))
  else if w < 16 && (decodeCommand ⟨BitVec.ofNat 4 w, []⟩).isSome then
    some (.command ⟨BitVec.ofNat 4 w, []⟩)
  else some (.stimulus (BitVec.ofNat 5 w))

/-- The operation the decoder reads from a bare table word. -/
def decodeTableWord (nbits w : Nat) : Option Instr :=
  match tableEncoded nbits w with
  | some e => decode e
  | none => none

end Sys2Proof
end

