-- ==== Sys2Proof/Machine/Constants.lean ====
section
/-! DEFINITION. The constants of spec/00_scope.md R6 that the source fixes. -/

namespace Sys2Proof.Machine

/-- `FRAME_MOD`: the period of the frame counter. -/
@[simp] abbrev frameMod : Nat := 60
/-- `WINDOW`: frames per poll window. -/
@[simp] abbrev window : Nat := 12
/-- `DIV0`: bit 0 pulses when `frame mod DIV0 == RES0`. -/
@[simp] abbrev div0 : Nat := 4
/-- `RES0`. -/
@[simp] abbrev res0 : Nat := 1
/-- `DIV1`: bit 1 pulses when `frame mod DIV1 == RES1`. -/
@[simp] abbrev div1 : Nat := 3
/-- `RES1`. -/
@[simp] abbrev res1 : Nat := 2
/-- `CHAR_BITS`: bits per character of an enqueued word. -/
@[simp] abbrev charBits : Nat := 8
/-- The greatest character code that fits `CHAR_BITS` bits (R118). -/
@[simp] abbrev maxCode : Nat := 255
/-- `BER_LEN`: polls in one bit-error-rate test. -/
@[simp] abbrev berLen : Nat := 200

end Sys2Proof.Machine
end

