-- ==== Sys2Proof/Config.lean ====
section
/-! DEFINITION. The OPEN parameters of FSKMOD (spec/00_scope.md R6): "Those marked OPEN are arguments
of the model". They are plain data, fixed for one machine; no step changes them. And the free values:
what the environment does, which the spec leaves free (R139). -/

namespace Sys2Proof.Config

/-- The parameters that R6 leaves OPEN, and `FRAME_RESET`, which R6 and R69 let a model take as an
argument. A default is what R6 gives as default or suggestion; `ampSelReset` has none there and its
default is a DESIGN CHOICE (assumption log entry 1), which no statement rests on. -/
structure Params where
  /-- `AMP_SEL_RESET`: the amplitude level the companion selects after reset (D15). -/
  ampSelReset : Bit := false
  /-- `FRAME_RESET`: the value of `frame` after reset, 0 to 59 (D6, R69). -/
  frameReset : Fin 60 := 0
  /-- `QUEUE_DEPTH`: capacity in bits of the word queue; `none` is unbounded (D21). -/
  queueDepth : Option Nat := none
  /-- `CMD_DEPTH`: capacity in commands of the command channel; `none` is unbounded (D21). -/
  cmdDepth : Option Nat := none
  /-- `OPACITY_W`: width of the display side's fixed-point rendering (D12). -/
  opacityW : Nat := 8
  /-- `Q_LOW`: the rendering of 1/10 (D12). -/
  qLow : Nat := 26
  /-- `Q_HIGH`: the rendering of 1/2 (D12). -/
  qHigh : Nat := 128
  deriving DecidableEq, Repr

/-- The free environment's act number `n`: an act of the input collaborator, or `none` where a clock
cycle comes next. A free value: "when a POST happens" is decided "by the input collaborator; the model
leaves both free" (R139; assumption log entry 4). -/
opaque freeAction : Nat → Option Action

/-- The pins `rst` and `tick` of a clock cycle drawn at number `n`. A free value: "which of SYS_TICK and
SYS_HOLD happens in a cycle is decided by the tick source" (R139; assumption log entry 4). -/
opaque freeClock : Nat → Bit × Bit

end Sys2Proof.Config
end

