-- ==== Sys2Proof/Machine/State.lean ====
section
/-! DEFINITION. The state of the system (core, companion, input collaborator and the schedule of what
the environment does next), its reset values, and the reasons a step can stop. -/

namespace Sys2Proof.Machine

/-- The complete state of the core (R11). -/
structure CoreRegs where
  /-- The phase of the most recently emitted frame (R12). -/
  frame : Phase
  /-- 1 when a bit is latched, 0 when "no bit" is latched (R13). -/
  lbV : Bit
  /-- The latched bit (R13); 0 when `lbV` is 0 (R14). -/
  lbB : Bit
  /-- The opacity code of the most recently emitted frame (R15). -/
  opCode : OpacityCode
  /-- 1 exactly in a cycle that follows a TICK cycle (R16). -/
  opStb : Bit
  deriving DecidableEq, Repr

/-- The bit source's state `E = (ovr, ber_rem, queue)` (R71): all three exist at the same time. -/
structure BitSource where
  /-- The valid bit of the manual override (R20). -/
  ovrV : Bit
  /-- The bit of the manual override (R20), encoded like the latch. -/
  ovrB : Bit
  /-- Polls the running bit-error-rate test still has to answer, 0 to 200 (R21). -/
  berRem : Nat
  /-- The word queue, front first (R22). -/
  queue : List Bit
  deriving DecidableEq, Repr

/-- One act of the environment (R139, R154). -/
inductive Event where
  /-- The input collaborator acts (R111). -/
  | act (a : Action)
  /-- A clock cycle of the whole system: the platform drives `rst`, the tick source `tick`, and the
  companion the other three pins (R135, R137, R138). -/
  | clock (rst tick : Bit)
  /-- A clock cycle of the core alone, its five input pins driven freely (R4, R133). -/
  | pins (w : Stimulus)
  deriving DecidableEq, Repr

/-- What the environment does, without end (R139): first the acts that are `listed`, then those of the
free environment (`Config.freeAction`, `Config.freeClock`) from number `free` on. -/
structure Schedule where
  /-- The acts that are known, in order. -/
  listed : List Event
  /-- How many draws of the free environment have been taken. -/
  free : Nat
  deriving DecidableEq, Repr

/-- The state of the system. -/
structure State where
  /-- The core's registers (R11). -/
  core : CoreRegs
  /-- The bit source (R20 to R22, R71). -/
  src : BitSource
  /-- The companion's amplitude select, 0 for 1/10 and 1 for 1/2 (R23). -/
  ampSel : Bit
  /-- The command channel, oldest first (R24). -/
  chan : List Packet
  /-- Set when QUIT is observed; only reset clears it (R25). -/
  quit : Bit
  /-- The input collaborator's own copy of the override, as it will stand after all commands already
  posted (R59, D18). -/
  ovrCopy : Option Bit
  /-- The OPEN parameters of this machine (R6); nothing writes them. -/
  params : Config.Params
  /-- The model's own field: what the environment does next, in order (R139). -/
  input : Schedule
  deriving DecidableEq, Repr

/-- Reasons for a fault: none exist. "There is no fault, no stuck state, no refusal and no
non-determinism in the core" (R133); every command is total (R121). -/
inductive Fault where
  deriving DecidableEq, Repr

/-- Reasons for a refusal. -/
inductive Refusal where
  /-- An operation that has no meaning in the model yet, by its mnemonic; raised by `exec`'s refused
  arms only, and no arm is one now. Safe: the model stops where the hardware goes on. -/
  | notModelled (mnemonic : String)
  deriving DecidableEq, Repr

/-- The core after reset (R29, R130). -/
def CoreRegs.reset (prm : Config.Params) : CoreRegs :=
  { frame := BitVec.ofNat 6 prm.frameReset.val, lbV := false, lbB := false, opCode := 0b00#2,
    opStb := false }

/-- The bit source after reset: no override, no test, nothing queued (R29, D16). -/
def BitSource.reset : BitSource :=
  { ovrV := false, ovrB := false, berRem := 0, queue := [] }

/-- The system with parameters `prm` right after SYS_RESET (R29, R138, R171). -/
def State.resetWith (prm : Config.Params) : State :=
  { core := CoreRegs.reset prm, src := BitSource.reset, ampSel := prm.ampSelReset, chan := [],
    quit := false, ovrCopy := none, params := prm, input := ⟨[], 0⟩ }

/-- The system with the default parameters right after reset. -/
def State.reset : State := State.resetWith {}

/-! One named update per field that an operation writes. -/

/-- `s` with the core's registers replaced. -/
def State.withCore (s : State) (c : CoreRegs) : State := { s with core := c }
/-- `s` with the bit source replaced. -/
def State.withSrc (s : State) (e : BitSource) : State := { s with src := e }
/-- `s` with the amplitude select replaced. -/
def State.withAmpSel (s : State) (a : Bit) : State := { s with ampSel := a }
/-- `s` with the command channel replaced. -/
def State.withChan (s : State) (q : List Packet) : State := { s with chan := q }
/-- `s` with the quit bit replaced. -/
def State.withQuit (s : State) (b : Bit) : State := { s with quit := b }
/-- `s` with the collaborator's copy of the override replaced. -/
def State.withOvrCopy (s : State) (o : Option Bit) : State := { s with ovrCopy := o }
/-- `s` with the environment's schedule replaced. -/
def State.withInput (s : State) (l : Schedule) : State := { s with input := l }

end Sys2Proof.Machine
end

