-- ==== Sys2Proof/Machine/Flags.lean ====
section
/-! DEFINITION. The combinational signals of the core. The block has no condition codes (R26); what a
flag is elsewhere is here a one-bit function of the phase, the latch and the pins. -/

namespace Sys2Proof.Machine

/-- The successor of the frame counter: 0 from 59 on, also from the unreachable 60 to 63 (R61, R65). -/
def next60 (f : Phase) : Phase :=
  if frameMod - 1 ≤ f.toNat then 0#6 else f + 1#6

/-- The capture-phase detector (R86). -/
def isCap (p : Phase) : Bit := p.toNat % window == 0

/-- The pulse function on the latch pair `(v, b)` (R96): the pair (0, 1) reads as "no bit" (R14). -/
def pulse (v b : Bit) (p : Phase) : Bit :=
  v && ((!b && p.toNat % div0 == res0) || (b && p.toNat % div1 == res1))

/-- The opacity code `{pl, pl & amp_sel}` (R101). -/
def opacityCode (pl amp : Bit) : OpacityCode := BitVec.ofBool pl ++ BitVec.ofBool (pl && amp)

/-- `src_take = !rst & tick & is_cap(next60(frame))` (R88). -/
def srcTake (w : Stimulus) (c : CoreRegs) : Bit :=
  !Stimulus.rst w && Stimulus.tick w && isCap (next60 c.frame)

end Sys2Proof.Machine
end

