-- ==== Sys2Proof/Machine/Operands.lean ====
section
/-! DEFINITION. Operand assembly: optional bits on pin pairs (R48), the bits of a word (R50, R117), and
the command a line or key stands for (R58, R59). -/

namespace Sys2Proof.Machine

/-- The optional bit that a pair (valid, bit) stands for; the bit is ignored when valid is 0 (R48). -/
def optionalBit (v b : Bit) : Option Bit := if v then some b else none

/-- The valid half of an optional bit's pair (R48). -/
def validOf (o : Option Bit) : Bit := o.isSome
/-- The bit half of an optional bit's pair, 0 when there is no bit (R48, R72). -/
def bitOf (o : Option Bit) : Bit := o.getD false

/-- The 8 bits of a character code, most significant first (R50, R117). -/
def charToBits (c : Nat) : List Bit :=
  [c.testBit 7, c.testBit 6, c.testBit 5, c.testBit 4, c.testBit 3, c.testBit 2, c.testBit 1,
    c.testBit 0]

/-- The bits of a word: its characters in order, each most significant bit first (R34, R117). -/
def wordToBits (text : List Nat) : List Bit := text.flatMap charToBits

/-- The command processor takes a text that is not empty and holds no code above 255; any other is an
input-format error, rejected whole (R118 (a), (b), R151). -/
def textAccepted (text : List Nat) : Bool :=
  !text.isEmpty && text.all (fun c => decide (c ≤ maxCode))

/-! The input collaborator's lines and keys. -/

/-- The command of an operation without text, as a packet. -/
def bareCommand (h : Header) : Packet := ⟨h, []⟩

/-- The expansion of the line or key of override `b` (R59): CLROVR when the collaborator's copy of the
override is `Some(b)`, else SETOVR `b`. -/
def toggleOverride (copy : Option Bit) (b : Bit) : Packet :=
  if copy = some b then bareCommand (packHeader 0b001#3 false)
  else bareCommand (packHeader 0b000#3 b)

/-- The lines `0`, `1`, `ber` and `quit` as character codes. PRESUMED: the codes are ASCII
(assumption log entry 3). -/
def lineZero : List Nat := [48]
/-- The line `1`. -/
def lineOne : List Nat := [49]
/-- The line `ber`. -/
def lineBer : List Nat := [98, 101, 114]
/-- The line `quit`. -/
def lineQuit : List Nat := [113, 117, 105, 116]

/-- The command a line posts, by comparison of the whole line, reserved words first; the empty line
posts nothing (R58). -/
def lineCommand (copy : Option Bit) (line : List Nat) : Option Packet :=
  if line = lineZero then some (toggleOverride copy false)
  else if line = lineOne then some (toggleOverride copy true)
  else if line = lineBer then some (bareCommand (packHeader 0b100#3 false))
  else if line = lineQuit then some (bareCommand (packHeader 0b101#3 false))
  else if line = [] then none
  else some ⟨packHeader 0b011#3 false, line⟩

/-- The command an action of the input collaborator posts, if any. -/
def actionCommand (copy : Option Bit) : Action → Option Packet
  | .command p => some p
  | .line text => lineCommand copy text
  | .ampKey => some (bareCommand (packHeader 0b010#3 false))
  | .ovrKey b => some (toggleOverride copy b)

end Sys2Proof.Machine
end

