-- ==== Sys2Proof/Machine/Ops.lean ====
section
/-! DEFINITION. The named operations over the registers, the queue and the tables: the core's three
register updates, the bit source's peek and consume and the changes commands make to it, the
companion's reset, and the command channel. The block raises no exception and has no trap entry and
no return from one (R150, R161), so no such operation is here. -/

namespace Sys2Proof.Machine

/-! The core (R130 to R132). -/

/-- HOLD's update: everything is kept and the strobe falls (R131). -/
def coreHold (c : CoreRegs) : CoreRegs := { c with opStb := false }

/-- TICK's update (R132): the counter advances (R62), at a capture phase the latch takes the pins'
optional bit (R87), and the modulator sees the latch after that capture (R90, R101). -/
def coreTick (v b a : Bit) (c : CoreRegs) : CoreRegs :=
  let p := next60 c.frame
  let lv := if isCap p then v else c.lbV
  let lb := if isCap p then v && b else c.lbB
  { frame := p, lbV := lv, lbB := lb, opCode := opacityCode (pulse lv lb p) a, opStb := true }

/-- The core's whole step: the next registers and `src_take` (R133). -/
def coreStep (prm : Config.Params) (c : CoreRegs) (w : Stimulus) : CoreRegs × Bit :=
  (if Stimulus.rst w then CoreRegs.reset prm
    else if Stimulus.tick w then
      coreTick (Stimulus.srcValid w) (Stimulus.srcBit w) (Stimulus.ampSel w) c
    else coreHold c,
   srcTake w c)

/-! The bit source (R71 to R74). -/

/-- The manual override as an optional bit (R20). -/
def overrideOf (e : BitSource) : Option Bit := optionalBit e.ovrV e.ovrB

/-- The next bit, by precedence override, BER test, queue, idle (R72). The BER value is the parity of
`ber_rem - 1` (R76, conflict C2). -/
def peek (e : BitSource) : Option Bit :=
  if e.ovrV then some e.ovrB
  else if 0 < e.berRem then some ((e.berRem - 1) % 2 == 1)
  else e.queue.head?

/-- The effect of taking the next bit, in the branch `peek` took (R73). -/
def consume (e : BitSource) : BitSource :=
  if e.ovrV then e
  else if 0 < e.berRem then { e with berRem := e.berRem - 1 }
  else { e with queue := e.queue.tail }

/-- `poll()` of the source: `peek`, then `consume` (R74). -/
def poll (e : BitSource) : Option Bit × BitSource := (peek e, consume e)

/-- `ovr <- Some(b)` (R114). -/
def setOverride (b : Bit) (e : BitSource) : BitSource := { e with ovrV := true, ovrB := b }

/-- `ovr <- None`, the pair (0, 0) (R115, R48). -/
def clearOverride (e : BitSource) : BitSource := { e with ovrV := false, ovrB := false }

/-- `ber_rem <- 200` (R119). -/
def startBer (e : BitSource) : BitSource := { e with berRem := berLen }

/-- `n` more bits fit a queue of the given capacity (R44). -/
def queueHasRoom (depth : Option Nat) (e : BitSource) (n : Nat) : Bool :=
  match depth with
  | none => true
  | some d => decide (e.queue.length + n ≤ d)

/-- All the bits of an accepted word join the tail at once; a rejected word changes nothing (R117,
R118, R44). -/
def enqueueWord (depth : Option Nat) (text : List Nat) (e : BitSource) : BitSource :=
  if textAccepted text && queueHasRoom depth e (charBits * text.length) then
    { e with queue := e.queue ++ wordToBits text }
  else e

/-! The companion and the command channel. -/

/-- The companion's and the input collaborator's part of SYS_RESET (R29, R138): `chan` and `quit` too. -/
def companionReset (s : State) : State :=
  { s with src := BitSource.reset, ampSel := s.params.ampSelReset, chan := [], quit := false,
           ovrCopy := none }

/-- The bit source consumes exactly when `src_take` is 1 (R73, R135 step 5). -/
def consumeIf (take : Bit) (s : State) : State :=
  if take then s.withSrc (consume s.src) else s

/-- The stimulus word the system drives onto the core's pins: the platform's `rst`, the gated `tick`,
and the companion's `peek` and amplitude (R72, R135 step 3). -/
def systemStimulus (rst tick : Bit) (s : State) : Stimulus :=
  packStimulus rst tick (validOf (peek s.src)) (bitOf (peek s.src)) s.ampSel

/-- What a command does to the override, as the input collaborator reckons it (R59, D18). -/
def overrideAfter (o : Option Bit) (p : Packet) : Option Bit :=
  match decodeCommand p with
  | some (.setovr b) => some b
  | some .clrovr => none
  | _ => o

/-- QUIT has been posted: it waits in `chan` or has been observed (R111, R120, R136). -/
def quitPosted (s : State) : Bool :=
  s.quit || s.chan.any (fun p => decodeCommand p == some .quit)

/-- No command fits the channel (R44). -/
def chanFull (s : State) : Bool :=
  match s.params.cmdDepth with
  | none => false
  | some d => decide (d ≤ s.chan.length)

/-- POST: one command joins the tail of `chan` (R111); the collaborator notes what it does to the
override (D18). -/
def post (p : Packet) (s : State) : State :=
  (s.withChan (s.chan ++ [p])).withOvrCopy (overrideAfter s.ovrCopy p)

/-- One action of the input collaborator. After QUIT it posts nothing more (R111, R120). -/
def collaborate (a : Action) (s : State) : State :=
  match actionCommand s.ovrCopy a with
  | none => s
  | some p => if quitPosted s then s else post p s

/-- The collaborator has no POST step and waits: it has a command to post, may still post, and finds
the channel full (R44). -/
def mustWait (a : Action) (s : State) : Bool :=
  (actionCommand s.ovrCopy a).isSome && !quitPosted s && chanFull s

end Sys2Proof.Machine
end

