-- ==== Sys2Proof/Machine/Command.lean ====
section
/-! DEFINITION. The meanings of the six commands (R114 to R120). Each is total (R121) and writes only the
companion registers its rule names (R113, R122). -/

namespace Sys2Proof.Machine

/-- SETOVR `b` (R114). -/
def execSetovr (b : Bit) (s : State) : Host.Outcome State Fault Refusal :=
  .next (s.withSrc (setOverride b s.src))

/-- CLROVR (R115). -/
def execClrovr (s : State) : Host.Outcome State Fault Refusal :=
  .next (s.withSrc (clearOverride s.src))

/-- TOGAMP (R116). -/
def execTogamp (s : State) : Host.Outcome State Fault Refusal :=
  .next (s.withAmpSel (!s.ampSel))

/-- ENQW `text` (R117, R118). -/
def execEnqw (text : List Nat) (s : State) : Host.Outcome State Fault Refusal :=
  .next (s.withSrc (enqueueWord s.params.queueDepth text s.src))

/-- BER (R119); during a running test it restarts the count. -/
def execBer (s : State) : Host.Outcome State Fault Refusal :=
  .next (s.withSrc (startBer s.src))

/-- QUIT (R120). -/
def execQuit (s : State) : Host.Outcome State Fault Refusal :=
  .next (s.withQuit true)

end Sys2Proof.Machine
end

