-- ==== Sys2Proof/Machine/Cycle.lean ====
section
/-! DEFINITION. The meanings of the three cycle operations RST, HOLD and TICK on the core (R130 to
R132). What the companion does in the same cycle (its reset, its consume) is the system's part
(Machine/System.lean, R135 to R138). -/

namespace Sys2Proof.Machine

/-- RST (R130): the four other pins are ignored (R54). -/
def execRst (_t _v _b _a : Bit) (s : State) : Host.Outcome State Fault Refusal :=
  .next (s.withCore (CoreRegs.reset s.params))

/-- HOLD (R131): the three pins are ignored (R54). -/
def execHold (_v _b _a : Bit) (s : State) : Host.Outcome State Fault Refusal :=
  .next (s.withCore (coreHold s.core))

/-- TICK (R132). -/
def execTick (v b a : Bit) (s : State) : Host.Outcome State Fault Refusal :=
  .next (s.withCore (coreTick v b a s.core))

end Sys2Proof.Machine
end

