-- ==== Sys2Proof/Machine/Dispatch.lean ====
section
/-! DEFINITION. One arm per operation of spec/opcode_table.json. -/

namespace Sys2Proof.Machine

def exec (i : Instr) (s : State) : Host.Outcome State Fault Refusal :=
  match i with
  | .rst t v b a => Sys2Proof.Machine.execRst t v b a s
  | .hold v b a => Sys2Proof.Machine.execHold v b a s
  | .tick v b a => Sys2Proof.Machine.execTick v b a s
  | .setovr b => Sys2Proof.Machine.execSetovr b s
  | .clrovr => Sys2Proof.Machine.execClrovr s
  | .togamp => Sys2Proof.Machine.execTogamp s
  | .enqw text => Sys2Proof.Machine.execEnqw text s
  | .ber => Sys2Proof.Machine.execBer s
  | .quit => Sys2Proof.Machine.execQuit s

end Sys2Proof.Machine
end

