-- ==== Sys2Proof/Machine/System.lean ====
section
/-! DEFINITION. The system step (R135 to R140): a clock cycle of core and companion together, the drain of
the command channel, and which act of the environment comes next. -/

namespace Sys2Proof.Machine

/-- `f` after an operation that goes on. -/
def onNext (f : State → State) :
    Host.Outcome State Fault Refusal → Host.Outcome State Fault Refusal
  | .next s => .next (f s)
  | .fault r => .fault r
  | .refused r => .refused r

/-- The command processor applies one command; a reserved header has no effect (R55, R112). -/
def applyCommand (p : Packet) (s : State) : Host.Outcome State Fault Refusal :=
  match decodeCommand p with
  | some i => exec i s
  | none => .next s

/-- The schedule `l` with the act `e` before it. -/
def putFirst (e : Event) (l : Schedule) : Schedule := ⟨e :: l.listed, l.free⟩

/-- One clock cycle of the system whose platform and tick source drive `rst` and `tick`; `rest` is the
schedule behind it.
* `rst`: SYS_RESET, whatever `tick` is (R138, R157).
* `tick` with `quit` = 0: SYS_TICK (R135). Its drain takes one cycle per command, in which the core
  sees HOLD, and the clock event stays first until the channel is empty or QUIT was applied, so that
  no POST comes between ("step 1 may take an implementation any number of clock cycles before it,
  provided no POST is interleaved and the core sees HOLD meanwhile", R135). Then the core executes
  the TICK with the companion's pins, and the bit source consumes if `src_take` is 1.
* otherwise SYS_HOLD (R137); after QUIT the pin `tick` is gated to 0 (R136). -/
def clockCycle (rst tick : Bit) (rest : Schedule) (s : State) :
    Host.Outcome State Fault Refusal :=
  let e := s.withInput rest
  if rst then onNext companionReset (exec (decodeStimulus (systemStimulus true tick e)) e)
  else if tick && !s.quit then
    match s.chan with
    | p :: ps =>
      applyCommand p
        (((s.withCore (coreHold s.core)).withChan ps).withInput (putFirst (.clock false true) rest))
    | [] =>
      onNext (consumeIf (srcTake (systemStimulus false true e) e.core))
        (exec (decodeStimulus (systemStimulus false true e)) e)
  else exec (decodeStimulus (systemStimulus false false e)) e

/-- The clock cycle that the free environment makes at number `n` (R139): SYS_TICK, SYS_HOLD or
SYS_RESET. -/
def freeCycle (n : Nat) : Event := .clock (Config.freeClock n).1 (Config.freeClock n).2

/-- What the free environment does at number `n` (R139): an act of the input collaborator or a clock
cycle. -/
def freeEvent (n : Nat) : Event :=
  match Config.freeAction n with
  | some a => .act a
  | none => freeCycle n

/-- The first act of the schedule, and the schedule behind it; behind the listed acts come the free
ones (R139). -/
def upcoming (l : Schedule) : Event × Schedule :=
  match l.listed with
  | [] => (freeEvent l.free, ⟨[], l.free + 1⟩)
  | e :: es => (e, ⟨es, l.free⟩)

/-- The first clock cycle among the acts `es` and the free ones from number `n` on, and the schedule
without it. -/
def firstCycleFrom : List Event → Nat → Event × Schedule
  | [], n => (freeCycle n, ⟨[], n + 1⟩)
  | .act a :: es, n => ((firstCycleFrom es n).1, putFirst (.act a) (firstCycleFrom es n).2)
  | .clock r t :: es, n => (.clock r t, ⟨es, n⟩)
  | .pins w :: es, n => (.pins w, ⟨es, n⟩)

/-- The first clock cycle of the schedule, and the schedule without it. -/
def firstCycle (l : Schedule) : Event × Schedule := firstCycleFrom l.listed l.free

/-- What happens next, and the schedule behind it. A collaborator that must wait lets the next clock
cycle go first (R44). -/
def nextEvent (s : State) : Event × Schedule :=
  match upcoming s.input with
  | (.act a, rest) => if mustWait a s then firstCycle (putFirst (.act a) rest) else (.act a, rest)
  | (.clock r t, rest) => (.clock r t, rest)
  | (.pins w, rest) => (.pins w, rest)

/-- One step: a POST, a clock cycle of the system, or a clock cycle of the core alone, which the
companion does not see (R4, R133, R139). -/
def systemStep (s : State) : Host.Outcome State Fault Refusal :=
  match nextEvent s with
  | (.act a, rest) => .next (collaborate a (s.withInput rest))
  | (.pins w, rest) => exec (decodeStimulus w) (s.withInput rest)
  | (.clock r t, rest) => clockCycle r t rest s

/-- The state in which the operation of a bare table word runs next: a stimulus word stands on the
pins of the next cycle; a command heads the channel and the next cycle is a system tick, whose drain
runs it (which takes `quit` = 0).
DESIGN CHOICE (assumption log entry 5): a command so placed is not a POST, so the collaborator's copy
of the override (R59) stays as it was. After a placed SETOVR or CLROVR that copy is stale, and a later
line or key `0` or `1` toggles from the stale copy. -/
def placeTableWord (s : State) (nbits w : Nat) : State :=
  match tableEncoded nbits w with
  | some (.stimulus x) => s.withInput (putFirst (.pins x) s.input)
  | some (.command p) =>
    ((s.withQuit false).withChan (p :: s.chan)).withInput (putFirst (.clock false true) s.input)
  | none => s

/-! The whole SYS_TICK as one transition (R112, R135), which `systemStep` takes in cycles. -/

/-- The state after a command was applied. -/
def applied (p : Packet) (s : State) : State :=
  match applyCommand p s with
  | .next t => t
  | .fault _ => s
  | .refused _ => s

/-- The drain loop over the commands `l` that stand in the channel: it stops when `quit` is 1 and
leaves the later commands there (R112, R120). -/
def drainFrom : List Packet → State → State
  | [], s => s.withChan []
  | p :: ps, s => if s.quit then s.withChan (p :: ps) else drainFrom ps (applied p s)

/-- DRAIN (R112). -/
def drain (s : State) : State := drainFrom s.chan s

/-- SYS_TICK steps 2 to 5 on the state after the drain (R135, R136). -/
def tickAfterDrain (d : State) : State :=
  if d.quit then d.withCore (coreHold d.core)
  else
    consumeIf (srcTake (systemStimulus false true d) d.core)
      (d.withCore (coreTick (validOf (peek d.src)) (bitOf (peek d.src)) d.ampSel d.core))

/-- SYS_TICK as one atomic transition of core and companion (R135). -/
def sysTick (s : State) : State := tickAfterDrain (drain s)

/-- How many commands the drain of a channel applies: up to and with the first QUIT (R112). -/
def drainLength : List Packet → Nat
  | [] => 0
  | p :: ps => if decodeCommand p = some .quit then 1 else drainLength ps + 1

end Sys2Proof.Machine
end

