-- ==== Sys2Proof/Machine/Step.lean ====
section
/-! DEFINITION. One step of the machine, and the placing of a table word where the next step runs it.
Both only call Machine/System.lean. -/

namespace Sys2Proof.Machine

/-- One step: the next act of the environment is served. -/
def step (s : State) : Host.Outcome State Fault Refusal := systemStep s

/-- `s` with the operation of a bare table word placed where the next step runs it. -/
def State.withFetchWord (s : State) (nbits w : Nat) : State := placeTableWord s nbits w

end Sys2Proof.Machine
end

