-- ==== Sys2Proof/Machine/Output.lean ====
section
/-! DEFINITION. What the block shows: the response word (R47), the two constant tables (R30 to R33), the
intensity (R95) and its rendering by the display surface (R19, R32). -/

namespace Sys2Proof.Machine

/-- The response word `O[9:0]` of a cycle with stimulus `w`: the registers before the cycle's edge and
the combinational `src_take` (R18, R47). -/
def responseWord (w : Stimulus) (c : CoreRegs) : Response :=
  c.frame ++ c.opCode ++ BitVec.ofBool c.opStb ++ BitVec.ofBool (srcTake w c)

/-- Row `b` of `PULSE_LUT` with bit `p` = entry `{b, p}`; entries 60 to 63 follow the formula (R31). -/
def pulseRow (b : Bit) : BitVec 64 :=
  if b then 0x4924924924924924#64 else 0x2222222222222222#64

/-- `PULSE_LUT`, index `{b, p[5:0]}` (R30, R41). -/
def pulseLut (i : BitVec 7) : Bit := (pulseRow (i.getLsbD 6)).getLsbD (i.extractLsb' 0 6).toNat

/-- The table of R33, indexed by the offset inside the poll window. -/
def windowRow (b : Bit) : List Bit :=
  if b then
    [false, false, true, false, false, true, false, false, true, false, false, true]
  else
    [false, true, false, false, false, true, false, false, false, true, false, false]

/-- The amplitude that `amp_sel` selects, as an exact rational (R23, R103). -/
def amplitude (a : Bit) : ℚ := if a then 1 / 2 else 1 / 10

/-- The modulator's contract (R95): `amplitude` where the latched bit pulses, else 0. -/
def intensity (l : Option Bit) (p : Phase) (amp : ℚ) : ℚ :=
  if pulse (validOf l) (bitOf l) p then amp else 0

/-- `OPACITY_LUT`: the reserved code `01` is treated as 0 (R32, R53). -/
def opacityLut (op : OpacityCode) : ℚ :=
  if op.getLsbD 1 then amplitude (op.getLsbD 0) else 0

/-- The optional fixed-point rendering on the display side, `Q_LOW` or `Q_HIGH` (R6, R32). -/
def render (prm : Config.Params) (op : OpacityCode) : Nat :=
  if op.getLsbD 1 then (if op.getLsbD 0 then prm.qHigh else prm.qLow) else 0

/-- The core driven by a list of stimulus words (R133). -/
def coreRun (prm : Config.Params) : List Stimulus → CoreRegs → CoreRegs
  | [], c => c
  | w :: ws, c => coreRun prm ws (coreStep prm c w).1

/-- The intensity stream of the core alone: one code per TICK cycle, as the strobe marks it (R19). -/
def coreStream (prm : Config.Params) : List Stimulus → CoreRegs → List OpacityCode
  | [], _ => []
  | w :: ws, c =>
    let d := (coreStep prm c w).1
    (if d.opStb then [d.opCode] else []) ++ coreStream prm ws d

/-- The `src_take` outputs of the same cycles. -/
def coreTakes (prm : Config.Params) : List Stimulus → CoreRegs → List Bit
  | [], _ => []
  | w :: ws, c => (coreStep prm c w).2 :: coreTakes prm ws (coreStep prm c w).1

end Sys2Proof.Machine
end

