-- ==== Sys2Proof/Safety.lean ====
section
/-! DEFINITION. What a legal state is, and what a run shows: the terms the statements are written in. -/

namespace Sys2Proof.Machine

/-- A legal state of the core. -/
structure CoreLegal (c : CoreRegs) : Prop where
  /-- R64. -/
  frame_le : c.frame.toNat ≤ 59
  /-- R14: the latch pair (0, 1) does not occur. -/
  latch_canonical : c.lbV = false → c.lbB = false
  /-- R15, R101: the overlay is on exactly when the latched bit pulses at the current phase. -/
  overlay_iff_pulse : c.opCode.getLsbD 1 = pulse c.lbV c.lbB c.frame
  /-- R53: the code `01` does not occur. -/
  code_not_reserved : c.opCode ≠ 0b01#2

/-- A legal state of the whole system: the invariant that reset establishes and every step keeps. -/
structure Legal (s : State) : Prop where
  core : CoreLegal s.core
  /-- R20, R48: the override pair (0, 1) does not occur. -/
  override_canonical : s.src.ovrV = false → s.src.ovrB = false
  /-- R21. -/
  ber_le : s.src.berRem ≤ 200
  /-- R44: a finite queue is never overfull. -/
  queue_fits : ∀ d, s.params.queueDepth = some d → s.src.queue.length ≤ d
  /-- R44: a finite channel is never overfull. -/
  chan_fits : ∀ d, s.params.cmdDepth = some d → s.chan.length ≤ d
  /-- R59, D18: the collaborator's copy is the override as it will stand after all commands already
  posted. -/
  copy_agrees : s.ovrCopy = s.chan.foldl overrideAfter (overrideOf s.src)

/-- A state that some run reaches: a run begins in a reset state (R171), with any parameters and any
acts of the environment. -/
def Reachable (s : State) : Prop :=
  ∃ (prm : Config.Params) (l : Schedule) (k : Nat),
    Host.Core.run Sys2Proof.core k ((State.resetWith prm).withInput l) = .next s

/-- An infinite run (R139): a sequence of states, each the next state of the one before. Its acts are the
listed ones and then the free environment's, so it is one of any infinite interleaving. -/
def IsRun (σ : Nat → State) : Prop := ∀ n, step (σ n) = .next (σ (n + 1))

/-- The acts of the input collaborator among the acts `es`, in order. -/
def actionsOf (es : List Event) : List Action :=
  es.filterMap (fun e => match e with
    | .act a => some a
    | .clock _ _ => none
    | .pins _ => none)

/-- The next act is a clock cycle, not a POST. -/
def servesCycle (s : State) : Bool :=
  match nextEvent s with
  | (.act _, _) => false
  | (.pins _, _) => true
  | (.clock _ _, _) => true

/-- The intensity stream of the next `k` steps: one code for each clock cycle after which the strobe
stands (R19, R139). -/
def stream : Nat → State → List OpacityCode
  | 0, _ => []
  | k + 1, s =>
    match step s with
    | .next t => (if servesCycle s && t.core.opStb then [t.core.opCode] else []) ++ stream k t
    | .fault _ => []
    | .refused _ => []

/-- `n` polls in a row: the bits they return and the bit source afterwards (R74). -/
def polls : Nat → BitSource → List (Option Bit) × BitSource
  | 0, e => ([], e)
  | n + 1, e => ((poll e).1 :: (polls n (poll e).2).1, (polls n (poll e).2).2)

/-- A stimulus word that does not reset. -/
def noReset (w : Stimulus) : Bool := !Stimulus.rst w

/-- The number of TICK cycles among stimulus words of which none resets. -/
def tickCount (ws : List Stimulus) : Nat := ws.countP (fun w => Stimulus.tick w)

/-- An act that resets, or that drives the core's pins past the companion. -/
def resetsOrBypasses : Event → Bool
  | .act _ => false
  | .clock rst _ => rst
  | .pins _ => true

end Sys2Proof.Machine
end

