-- ==== Sys2Proof/Certificates/Slice0/Obligations.lean ====
section
/-! DEFINITION. The statements for the provers, in the terms of the spec's numbered rules. -/

open Sys2Proof Sys2Proof.Machine

/-! ## Encoding -/

/-- R45 to R51, R55: decoding the encoding of any operation gives it back with every operand, and every
stimulus word, and every command header that decodes, is the encoding of what it decodes to, so that
no bit of a word is dropped. -/
def Obligations.DecodeEncodeRoundTrip : Prop :=
  (∀ i : Instr, decode (encode i) = some i) ∧
  (∀ w : Stimulus, encode (decodeStimulus w) = .stimulus w) ∧
  (∀ (h : Header) (text : List Nat) (i : Instr), decodeCommand ⟨h, text⟩ = some i →
    encode i = .command ⟨h, if h = 0x6#4 then text else []⟩)

/-- R52: every stimulus word selects exactly one of RST, HOLD, TICK, by `S[4:3]`, and none traps. -/
def Obligations.StimulusSelectsOneOperation : Prop :=
  (∀ w : Stimulus,
    ((∃ t v b a, decodeStimulus w = .rst t v b a) ↔
      w.extractLsb' 3 2 = 0b10#2 ∨ w.extractLsb' 3 2 = 0b11#2) ∧
    ((∃ v b a, decodeStimulus w = .hold v b a) ↔ w.extractLsb' 3 2 = 0b00#2) ∧
    ((∃ v b a, decodeStimulus w = .tick v b a) ↔ w.extractLsb' 3 2 = 0b01#2)) ∧
  (∀ w s, ∃ t, exec (decodeStimulus w) s = .next t)

/-- R55: the nine reserved headers decode to no operation, and the command processor applies one as a
command with no effect. That no other header does, whatever text follows (that is, that a text behind
a header other than ENQW's is not read), is the model's choice: R49 gives no such form (DESIGN CHOICE,
assumption log entry 12). -/
def Obligations.ReservedHeadersAreNoOps : Prop :=
  ∀ (h : Header) (text : List Nat),
    (decodeCommand ⟨h, text⟩ = none ↔
      h ∈ [0b0011#4, 0b0101#4, 0b0111#4, 0b1001#4, 0b1011#4, 0b1100#4, 0b1101#4, 0b1110#4,
        0b1111#4]) ∧
    (decodeCommand ⟨h, text⟩ = none → ∀ s, applyCommand ⟨h, text⟩ s = .next s)

/-- R51: words written out from the table decode to the operations they stand for. -/
def Obligations.TableWordsDecode : Prop :=
  decodeStimulus 0b10000#5 = .rst false false false false ∧
  decodeStimulus 0b00111#5 = .hold true true true ∧
  decodeStimulus 0b01110#5 = .tick true true false ∧
  decodeCommand ⟨0b0000#4, []⟩ = some (.setovr false) ∧
  decodeCommand ⟨0b0001#4, []⟩ = some (.setovr true) ∧
  decodeCommand ⟨0b0010#4, []⟩ = some .clrovr ∧
  decodeCommand ⟨0b0100#4, []⟩ = some .togamp ∧
  decodeCommand ⟨0b0110#4, [65]⟩ = some (.enqw [65]) ∧
  decodeCommand ⟨0b1000#4, []⟩ = some .ber ∧
  decodeCommand ⟨0b1010#4, []⟩ = some .quit

/-- R51: in one format no word is selected by two rows of the opcode table, and every stimulus word by
one. -/
def Obligations.TableRowsAreDisjoint : Prop :=
  (∀ w < 32, (opcodeRows.filter (fun r => r.format == .s && r.selects w)).length = 1) ∧
  (∀ h < 16, (opcodeRows.filter (fun r => r.format == .c && r.selects h)).length ≤ 1)

/-! ## The cycle operations: the whole next state, that is result and frame -/

/-- R130: RST leaves the core at its reset values, with `src_take` 0, and changes nothing else. -/
def Obligations.RstNextState : Prop :=
  ∀ (t v b a : Bit) (s : State),
    exec (.rst t v b a) s = .next { s with core :=
      { frame := BitVec.ofNat 6 s.params.frameReset.val, lbV := false, lbB := false,
        opCode := 0b00#2, opStb := false } } ∧
    srcTake (packStimulus true t v b a) s.core = false

/-- R131: HOLD keeps `frame`, the latch and `op_code` and clears `op_stb`; `src_take` is 0. -/
def Obligations.HoldNextState : Prop :=
  ∀ (v b a : Bit) (s : State),
    exec (.hold v b a) s = .next { s with core := { s.core with opStb := false } } ∧
    srcTake (packStimulus false false v b a) s.core = false

/-- R132: TICK's next state and `src_take`, for every state and all values of the pins, in the rule's
own arithmetic. -/
def Obligations.TickNextState : Prop :=
  ∀ (v b a : Bit) (s : State),
    let p : Phase := if 59 ≤ s.core.frame.toNat then 0#6 else s.core.frame + 1#6
    let lv : Bit := if p.toNat % 12 = 0 then v else s.core.lbV
    let lb : Bit := if p.toNat % 12 = 0 then (v && b) else s.core.lbB
    let pl : Bit := lv && decide ((lb = false ∧ p.toNat % 4 = 1) ∨ (lb = true ∧ p.toNat % 3 = 2))
    exec (.tick v b a) s = .next { s with core :=
      { frame := p, lbV := lv, lbB := lb,
        opCode := BitVec.ofBool pl ++ BitVec.ofBool (pl && a), opStb := true } } ∧
    srcTake (packStimulus false true v b a) s.core = decide (p.toNat % 12 = 0)

/-- R16: TICK writes `op_stb` 1, HOLD and RST write it 0. -/
def Obligations.StrobeMarksTicks : Prop :=
  ∀ (w : Stimulus) (s t : State), exec (decodeStimulus w) s = .next t →
    (t.core.opStb = true ↔ Stimulus.rst w = false ∧ Stimulus.tick w = true)

/-- R89: in every cycle that is not a capturing TICK the latch keeps its value, and RST clears it. -/
def Obligations.LatchHeldBetweenCaptures : Prop :=
  ∀ (w : Stimulus) (s t : State), exec (decodeStimulus w) s = .next t →
    (Stimulus.rst w = true → t.core.lbV = false ∧ t.core.lbB = false) ∧
    (Stimulus.rst w = false → srcTake w s.core = false →
      t.core.lbV = s.core.lbV ∧ t.core.lbB = s.core.lbB)

/-- R54: the ignored fields of a stimulus word change neither the next state nor `src_take`. -/
def Obligations.IgnoredFieldsHaveNoEffect : Prop :=
  ∀ (s : State) (t t' v v' b b' a a' : Bit),
    (exec (.rst t v b a) s = exec (.rst t' v' b' a') s ∧
      responseWord (packStimulus true t v b a) s.core =
        responseWord (packStimulus true t' v' b' a') s.core) ∧
    (exec (.hold v b a) s = exec (.hold v' b' a') s ∧
      responseWord (packStimulus false false v b a) s.core =
        responseWord (packStimulus false false v' b' a') s.core) ∧
    (isCap (next60 s.core.frame) = false → exec (.tick v b a) s = exec (.tick v' b' a) s) ∧
    (isCap (next60 s.core.frame) = true → exec (.tick false b a) s = exec (.tick false b' a) s) ∧
    responseWord (packStimulus false true v b a) s.core =
      responseWord (packStimulus false true v' b' a') s.core

/-- R107: no rule reads `op_code` or `op_stb` back: two cores that differ only there take, under the
same stimulus words, the same `src_take`s, hold the same counter and latch, and emit the same
stream. -/
def Obligations.OutputRegistersNeverReadBack : Prop :=
  ∀ (prm : Config.Params) (ws : List Stimulus) (c d : CoreRegs),
    c.frame = d.frame → c.lbV = d.lbV → c.lbB = d.lbB →
    coreTakes prm ws c = coreTakes prm ws d ∧
    coreStream prm ws c = coreStream prm ws d ∧
    (coreRun prm ws c).frame = (coreRun prm ws d).frame ∧
    (coreRun prm ws c).lbV = (coreRun prm ws d).lbV ∧
    (coreRun prm ws c).lbB = (coreRun prm ws d).lbB

/-- R131: HOLD cycles anywhere in a sequence of cycles change neither the intensity stream nor the
number of bits taken. -/
def Obligations.HoldsDoNotChangeTheStream : Prop :=
  ∀ (prm : Config.Params) (before after : List Stimulus) (h : Stimulus) (c : CoreRegs),
    Stimulus.rst h = false → Stimulus.tick h = false →
    coreStream prm (before ++ h :: after) c = coreStream prm (before ++ after) c ∧
    (coreTakes prm (before ++ h :: after) c).count true =
      (coreTakes prm (before ++ after) c).count true

/-- R65: the values 60 to 63: `next60` maps them to 0, a TICK emits phase 0 and captures, a HOLD keeps
them, and `frame_o` shows the raw value. -/
def Obligations.UnreachablePhasesRecover : Prop :=
  ∀ (s : State) (v b a : Bit) (w : Stimulus), 60 ≤ s.core.frame.toNat →
    next60 s.core.frame = 0#6 ∧
    srcTake (packStimulus false true v b a) s.core = true ∧
    (∃ t, exec (.tick v b a) s = .next t ∧ t.core.frame = 0#6) ∧
    (∃ t, exec (.hold v b a) s = .next t ∧ t.core.frame = s.core.frame) ∧
    (responseWord w s.core).extractLsb' 4 6 = s.core.frame

/-- R47: the fields of the response word. -/
def Obligations.ResponseWordLayout : Prop :=
  ∀ (w : Stimulus) (c : CoreRegs),
    (responseWord w c).extractLsb' 4 6 = c.frame ∧
    (responseWord w c).extractLsb' 2 2 = c.opCode ∧
    (responseWord w c).getLsbD 1 = c.opStb ∧
    ((responseWord w c).getLsbD 0 = true ↔
      Stimulus.rst w = false ∧ Stimulus.tick w = true ∧ (next60 c.frame).toNat % 12 = 0)

/-! ## The frame counter and the sampler -/

/-- R61: the successor function, its agreement with `(f + 1) mod 60`, and its range. -/
def Obligations.SuccessorPhase : Prop :=
  ∀ f : Phase,
    (59 ≤ f.toNat → (next60 f).toNat = 0) ∧
    (f.toNat < 59 → (next60 f).toNat = f.toNat + 1) ∧
    (f.toNat ≤ 59 → (next60 f).toNat = (f.toNat + 1) % 60) ∧
    (next60 f).toNat ≤ 59

/-- R66: the TICK numbered `n` emits phase `(f0 + n) mod 60`, HOLD cycles ignored. -/
def Obligations.PhaseAfterTicks : Prop :=
  ∀ (prm : Config.Params) (ws : List Stimulus) (c : CoreRegs),
    c.frame.toNat ≤ 59 → ws.all noReset = true →
    (coreRun prm ws c).frame.toNat = (c.frame.toNat + tickCount ws) % 60

/-- R64: in every state reachable from reset, with any parameters and any schedule, `frame` is in 0 to
59. -/
def Obligations.FrameInRangeWhenReachable : Prop :=
  ∀ s : State, Reachable s → s.core.frame.toNat ≤ 59

/-- R91: among any 12 consecutive TICKs exactly one captures, and among any 60 exactly five, whatever
HOLD cycles stand between. -/
def Obligations.OneCapturePerWindow : Prop :=
  ∀ (prm : Config.Params) (ws : List Stimulus) (c : CoreRegs), ws.all noReset = true →
    (tickCount ws = 12 → (coreTakes prm ws c).count true = 1) ∧
    (tickCount ws = 60 → (coreTakes prm ws c).count true = 5)

/-! ## The modulator -/

/-- R97: with no bit latched the intensity is 0 at every phase, whatever the amplitude. -/
def Obligations.NoBitIsDark : Prop :=
  ∀ (p : Phase) (amp : ℚ), intensity none p amp = 0

/-- R98: bit 0 shows the amplitude exactly at the phases 1, 5, ..., 57. -/
def Obligations.BitZeroTone : Prop :=
  (∀ (p : Phase) (amp : ℚ), p.toNat ≤ 59 →
    intensity (some false) p amp = if p.toNat % 4 = 1 then amp else 0) ∧
  (∀ (p : Phase), p.toNat ≤ 59 → (pulse true false p = true ↔
    p.toNat ∈ [1, 5, 9, 13, 17, 21, 25, 29, 33, 37, 41, 45, 49, 53, 57]))

/-- R99: bit 1 shows the amplitude exactly at the phases 2, 5, ..., 59. -/
def Obligations.BitOneTone : Prop :=
  (∀ (p : Phase) (amp : ℚ), p.toNat ≤ 59 →
    intensity (some true) p amp = if p.toNat % 3 = 2 then amp else 0) ∧
  (∀ (p : Phase), p.toNat ≤ 59 → (pulse true true p = true ↔
    p.toNat ∈ [2, 5, 8, 11, 14, 17, 20, 23, 26, 29, 32, 35, 38, 41, 44, 47, 50, 53, 56, 59]))

/-- R100 (a) to (d): no pulse at a capture phase; both tones pulse exactly at offset 5; a window of
bit 0 pulses at offsets 1, 5, 9 and one of bit 1 at 2, 5, 8, 11; no two consecutive phases pulse for
one bit. -/
def Obligations.PulseFacts : Prop :=
  (∀ (v b : Bit) (p : Phase), p.toNat ≤ 59 → p.toNat % 12 = 0 → pulse v b p = false) ∧
  (∀ p : Phase, p.toNat ≤ 59 →
    ((pulse true false p = true ∧ pulse true true p = true) ↔ p.toNat % 12 = 5)) ∧
  (∀ k < 5,
    (List.range 12).filter (fun i => pulse true false (BitVec.ofNat 6 (12 * k + i))) = [1, 5, 9] ∧
    (List.range 12).filter (fun i => pulse true true (BitVec.ofNat 6 (12 * k + i))) =
      [2, 5, 8, 11] ∧
    (List.range 12).filter (fun i => pulse false false (BitVec.ofNat 6 (12 * k + i))) = []) ∧
  (∀ (v b : Bit) (p : Phase), p.toNat ≤ 59 →
    ¬ (pulse v b p = true ∧ pulse v b (next60 p) = true))

/-- R31: the table is the formula, its 60-entry rows are the two numbers the rule prints, and they hold
15 and 20 ones; with no bit latched the pulse is 0 at every phase. -/
def Obligations.PulseTableIsTheFormula : Prop :=
  (∀ (b : Bit) (p : Phase), pulseLut (BitVec.ofBool b ++ p) = pulse true b p) ∧
  (pulseRow false).toNat % 2 ^ 60 = 0x222222222222222 ∧
  (pulseRow true).toNat % 2 ^ 60 = 0x924924924924924 ∧
  ((List.range 60).filter (fun p => (pulseRow false).getLsbD p)).length = 15 ∧
  ((List.range 60).filter (fun p => (pulseRow true).getLsbD p)).length = 20 ∧
  (∀ (b : Bit) (p : Phase), pulse false b p = false)

/-- R33: the table by the offset inside the window is the pulse function at every phase. -/
def Obligations.WindowTableIsThePulse : Prop :=
  ∀ (b : Bit) (p : Phase), p.toNat ≤ 59 →
    (windowRow b)[p.toNat % 12]? = some (pulse true b p) ∧
    pulse true b p = pulse true b (BitVec.ofNat 6 (p.toNat % 12))

/-- R32, R53: what each opacity code shows; the core never produces the reserved one. -/
def Obligations.OpacityCodesShown : Prop :=
  opacityLut 0b00#2 = 0 ∧ opacityLut 0b10#2 = 1 / 10 ∧ opacityLut 0b11#2 = 1 / 2 ∧
  opacityLut 0b01#2 = 0 ∧
  (∀ (w : Stimulus) (s t : State), exec (decodeStimulus w) s = .next t →
    t.core.opCode = 0b01#2 → s.core.opCode = 0b01#2 ∧ Stimulus.rst w = false ∧
      Stimulus.tick w = false)

/-- R95, R101: the code a TICK writes shows the modulator's intensity of the latch after that TICK's
capture, the phase it emits, and the amplitude of its own pin. -/
def Obligations.TickShowsIntensity : Prop :=
  ∀ (v b a : Bit) (s t : State), exec (.tick v b a) s = .next t →
    opacityLut t.core.opCode =
      intensity (optionalBit t.core.lbV t.core.lbB) t.core.frame (if a then 1 / 2 else 1 / 10)

/-- R134: a TICK that captures, followed by cycles with 11 more TICKs, no RST and any HOLDs, emits the
window's pulse pattern, each pulse with the amplitude of its own TICK; the 13th TICK captures
again. -/
def Obligations.WindowStream : Prop :=
  ∀ (prm : Config.Params) (c : CoreRegs) (w x : Stimulus) (ws : List Stimulus),
    srcTake w c = true → ws.all noReset = true → tickCount ws = 11 →
    coreStream prm (w :: ws) c =
      List.zipWith opacityCode
        (if Stimulus.srcValid w then windowRow (Stimulus.srcBit w) else List.replicate 12 false)
        (((w :: ws).filter (fun y => Stimulus.tick y)).map (fun y => Stimulus.ampSel y)) ∧
    (Stimulus.rst x = false → Stimulus.tick x = true →
      srcTake x (coreRun prm (w :: ws) c) = true)

/-! ## The bit source -/

/-- R72, R73: the precedence of the four variants (override, BER test, queue, idle): what `peek` returns
in each, and that `consume` takes the same branch. -/
def Obligations.PeekAndConsumeByPrecedence : Prop :=
  ∀ e : BitSource,
    (∀ b, overrideOf e = some b → peek e = some b ∧ consume e = e) ∧
    (∀ n, overrideOf e = none → e.berRem = n + 1 →
      peek e = some (n % 2 == 1) ∧ consume e = { e with berRem := n }) ∧
    (∀ b q, overrideOf e = none → e.berRem = 0 → e.queue = b :: q →
      peek e = some b ∧ consume e = { e with queue := q }) ∧
    (overrideOf e = none → e.berRem = 0 → e.queue = [] → peek e = none ∧ consume e = e)

/-- R75, R114: after SETOVR `b` every poll returns `b` and consumes nothing, whatever the queue and the
BER test hold; after CLROVR both are as they were. -/
def Obligations.OverrideIsRepeatable : Prop :=
  ∀ (b : Bit) (s : State) (n : Nat), ∃ t u : State,
    exec (.setovr b) s = .next t ∧
    polls n t.src = (List.replicate n (some b), t.src) ∧
    exec .clrovr { t with src := (polls n t.src).2 } = .next u ∧
    overrideOf u.src = none ∧ u.src.berRem = s.src.berRem ∧ u.src.queue = s.src.queue

/-- R76, R119: after BER with no override the next 200 polls return 199 mod 2, 198 mod 2, ..., 0 mod 2;
then the test is over and the queue is as it was. -/
def Obligations.BerSequence : Prop :=
  ∀ s : State, overrideOf s.src = none → ∃ t : State,
    exec .ber s = .next t ∧
    polls 200 t.src =
      ((List.range 200).map (fun k => some ((199 - k) % 2 == 1)), { s.src with berRem := 0 })

/-- R77, R117: the bits of an accepted word are polled after the bits already queued, characters in
order, most significant bit first; then the source is idle. -/
def Obligations.WordIsPolledInOrder : Prop :=
  ∀ (s : State) (text : List Nat), overrideOf s.src = none → s.src.berRem = 0 →
    s.params.queueDepth = none → text ≠ [] → (∀ c ∈ text, c ≤ 255) → ∃ t : State,
    exec (.enqw text) s = .next t ∧
    polls (s.src.queue.length + 8 * text.length) t.src =
      ((s.src.queue ++ text.flatMap (fun c => (List.range 8).map (fun j => c.testBit (7 - j)))).map
          some,
        { s.src with queue := [] })

/-- R78: polling an idle source returns "no bit" every time and changes nothing. -/
def Obligations.IdleIsStable : Prop :=
  ∀ (e : BitSource) (n : Nat), overrideOf e = none → e.berRem = 0 → e.queue = [] →
    polls n e = (List.replicate n none, e)

/-! ## The commands: the whole next state, that is result and frame -/

/-- R114: SETOVR `b` writes the override and nothing else. -/
def Obligations.SetovrNextState : Prop :=
  ∀ (b : Bit) (s : State),
    exec (.setovr b) s = .next { s with src := { s.src with ovrV := true, ovrB := b } }

/-- R115: CLROVR writes the override `None` and nothing else. -/
def Obligations.ClrovrNextState : Prop :=
  ∀ s : State, exec .clrovr s = .next { s with src := { s.src with ovrV := false, ovrB := false } }

/-- R116: TOGAMP inverts the amplitude select and writes nothing else; two of them cancel. -/
def Obligations.TogampNextState : Prop :=
  ∀ s : State, exec .togamp s = .next { s with ampSel := !s.ampSel } ∧
    exec .togamp { s with ampSel := !s.ampSel } = .next s

/-- R117: ENQW of a text that can be encoded and fits appends the 8 bits of each character, most
significant first, and writes nothing else. -/
def Obligations.EnqwAppendsTheWord : Prop :=
  ∀ (text : List Nat) (s : State), text ≠ [] → (∀ c ∈ text, c ≤ 255) →
    (∀ d, s.params.queueDepth = some d → s.src.queue.length + 8 * text.length ≤ d) →
    exec (.enqw text) s = .next { s with src := { s.src with
      queue := s.src.queue ++
        text.flatMap (fun c => (List.range 8).map (fun j => c.testBit (7 - j))) } }

/-- R118, R44: ENQW of the empty text, of a text with a code above 255, or of one that does not fit a
finite queue, changes nothing at all. -/
def Obligations.EnqwRejectedWhole : Prop :=
  ∀ (text : List Nat) (s : State),
    (text = [] ∨ (∃ c ∈ text, 255 < c) ∨
      (∃ d, s.params.queueDepth = some d ∧ d < s.src.queue.length + 8 * text.length)) →
    exec (.enqw text) s = .next s

/-- R119: BER sets the count to 200, during a running test too, and writes nothing else. -/
def Obligations.BerNextState : Prop :=
  ∀ s : State, exec .ber s = .next { s with src := { s.src with berRem := 200 } }

/-- R120: QUIT sets `quit` and writes nothing else. -/
def Obligations.QuitNextState : Prop :=
  ∀ s : State, exec .quit s = .next { s with quit := true }

/-- R113, R122: a command writes only the companion register its rule names: no core register (so it
emits no frame), no part of the channel, the schedule or the parameters; the override only by SETOVR
and CLROVR, the count only by BER, the queue only by ENQW and only at its tail (so it polls nothing),
the amplitude only by TOGAMP, `quit` only by QUIT. -/
def Obligations.CommandsWriteOnlyTheirRegister : Prop :=
  ∀ (p : Packet) (i : Instr) (s : State), decodeCommand p = some i →
    ∃ t : State, exec i s = .next t ∧ t.core = s.core ∧ t.chan = s.chan ∧
      t.params = s.params ∧ t.ovrCopy = s.ovrCopy ∧ t.input = s.input ∧
      ((t.src.ovrV = s.src.ovrV ∧ t.src.ovrB = s.src.ovrB) ∨ (∃ b, i = .setovr b) ∨
        i = .clrovr) ∧
      (t.src.berRem = s.src.berRem ∨ i = .ber ∧ t.src.berRem = 200) ∧
      (t.src.queue = s.src.queue ∨ ∃ text, i = .enqw text ∧ s.src.queue <+: t.src.queue) ∧
      (t.ampSel = s.ampSel ∨ i = .togamp) ∧
      (t.quit = s.quit ∨ i = .quit)

/-! ## The step -/

/-- R46: a step runs the decoded operation. A cycle of the core alone, in which the companion is not
attached (DEDUCED, assumption log entry 7), runs the operation of its stimulus word. A system tick
with commands waiting runs the first one, the core held, the tick still to be finished: that the
drain of R112 takes one step per command is the model's deduction from R135 (assumption log entry 6);
where the first command's header is reserved, it is dropped and the core held. A system tick with none
waiting runs the TICK that the companion's pins and amplitude make, and consumes exactly if
`src_take` is 1. -/
def Obligations.StepRunsTheDecodedOperation : Prop :=
  ∀ (s : State) (rest : Schedule),
    (∀ w, nextEvent s = (.pins w, rest) →
      step s = exec (decodeStimulus w) { s with input := rest }) ∧
    (∀ p ps i, nextEvent s = (.clock false true, rest) → s.quit = false → s.chan = p :: ps →
      decodeCommand p = some i →
      step s = exec i { s with
        core := { s.core with opStb := false }, chan := ps,
        input := putFirst (.clock false true) rest }) ∧
    (∀ p ps, nextEvent s = (.clock false true, rest) → s.quit = false → s.chan = p :: ps →
      decodeCommand p = none →
      step s = .next { s with
        core := { s.core with opStb := false }, chan := ps,
        input := putFirst (.clock false true) rest }) ∧
    (nextEvent s = (.clock false true, rest) → s.quit = false → s.chan = [] →
      ∃ v b t, (v, b) = (validOf (peek s.src), bitOf (peek s.src)) ∧
        decodeStimulus (packStimulus false true v b s.ampSel) = .tick v b s.ampSel ∧
        exec (.tick v b s.ampSel) { s with input := rest } = .next t ∧
        step s = .next (if (next60 s.core.frame).toNat % 12 = 0 then
          { t with src := consume s.src } else t))

/-- The host's reading of a bare table word: the operation it decodes to is the one the next step runs.
All of it is the model's: the choice of format (DESIGN CHOICE, assumption log entry 2); that a placed
stimulus word stands on the pins of a cycle of the core alone (entry 7); that a placed command heads
the channel, with `quit` cleared and a system tick as the next act (DESIGN CHOICE, entry 5); and that
the next step drains just that command (DEDUCED, entry 6). The table gives an ENQW's text no bits, so a
placed ENQW has the empty text. -/
def Obligations.PlacedWordRunsNext : Prop :=
  ∀ (s : State) (nbits w : Nat) (i : Instr), decodeTableWord nbits w = some i →
    ((∃ x, i = decodeStimulus x) → step (s.withFetchWord nbits w) = exec i s) ∧
    ((∃ p, decodeCommand p = some i) → step (s.withFetchWord nbits w) =
      exec i { s with
        core := { s.core with opStb := false }, quit := false,
        input := putFirst (.clock false true) s.input })

/-- R133, R121, R150: the step is total: every state, legal or not, has a next state. So every state
begins an infinite run, and only one (R139: deterministic given the interleaving, which the state
holds; its schedule has no end, assumption log entry 4). -/
def Obligations.StepAlwaysAnswers : Prop :=
  (∀ s : State, ∃ t : State, step s = .next t) ∧
  ∀ s : State, ∃! σ : Nat → State, σ 0 = s ∧ IsRun σ

/-- R29, R138, R157: a system cycle with `rst` = 1 leaves every register of core and companion at the
value of R29's table, whatever `tick` is and whatever went before; `AMP_SEL_RESET` and `FRAME_RESET`
are the machine's parameters. That the collaborator's copy of the override becomes `None` is the
model's deduction (assumption log entry 9), and that the environment's schedule stays the model's
choice (entry 4). -/
def Obligations.SysResetState : Prop :=
  ∀ (s : State) (tick : Bit) (rest : Schedule), nextEvent s = (.clock true tick, rest) →
    step s = .next
      { core := { frame := BitVec.ofNat 6 s.params.frameReset.val, lbV := false, lbB := false,
                  opCode := 0b00#2, opStb := false },
        src := { ovrV := false, ovrB := false, berRem := 0, queue := [] },
        ampSel := s.params.ampSelReset, chan := [], quit := false, ovrCopy := none,
        params := s.params, input := rest }

/-- R136, R137: a system cycle without a tick, or after QUIT, is a HOLD of the core and leaves the
companion as it is. -/
def Obligations.SysHoldState : Prop :=
  ∀ (s : State) (tick : Bit) (rest : Schedule), nextEvent s = (.clock false tick, rest) →
    (tick = false ∨ s.quit = true) →
    step s = .next { s with core := { s.core with opStb := false }, input := rest }

/-- R111, R28, R120 (and assumption log entry 9 for the collaborator's
copy of the override): an act of the input collaborator changes nothing but the tail of `chan` (and the
collaborator's own copy of the override), by one command, and nothing at all after QUIT was
posted. -/
def Obligations.PostTouchesOnlyTheChannel : Prop :=
  ∀ (s : State) (a : Action) (rest : Schedule), nextEvent s = (.act a, rest) →
    (∃ p, actionCommand s.ovrCopy a = some p ∧ quitPosted s = false ∧
      step s = .next { s with
        chan := s.chan ++ [p], ovrCopy := overrideAfter s.ovrCopy p, input := rest }) ∨
    ((actionCommand s.ovrCopy a = none ∨ quitPosted s = true) ∧
      step s = .next { s with input := rest })

/-- R44: a collaborator that finds the channel full waits and drops nothing: the step is that of the
schedule's first clock cycle (the one behind the waiting acts; where the list holds none, the free
environment's next, assumption log entries 4 and 8), every act of the collaborator stays in the
schedule, in order, and the channel stays, gives its first command to the drain of a system tick, or
is emptied by a reset. -/
def Obligations.FullChannelMakesPostWait : Prop :=
  ∀ (s : State) (a : Action) (es : List Event) (d : Nat), s.input.listed = .act a :: es →
    s.params.cmdDepth = some d → d ≤ s.chan.length → quitPosted s = false →
    (actionCommand s.ovrCopy a).isSome = true →
    nextEvent s = firstCycle s.input ∧ servesCycle s = true ∧
    (∀ (as : List Action) (c : Event) (cs : List Event), es = as.map .act ++ c :: cs →
      actionsOf [c] = [] →
      nextEvent s = (c, ⟨.act a :: as.map .act ++ cs, s.input.free⟩)) ∧
    ∃ t : State, step s = .next t ∧ actionsOf t.input.listed = actionsOf s.input.listed ∧
      (t.chan = s.chan ∨
        (∃ rest p, nextEvent s = (.clock false true, rest) ∧ s.quit = false ∧
          s.chan = p :: t.chan) ∨
        (∃ k rest, nextEvent s = (.clock true k, rest) ∧ t.chan = []))

/-- R58, R59: the command each line posts (the codes of the reserved words are the model's presumption,
assumption log entry 3), and that of the amplitude key, TOGAMP. -/
def Obligations.LineForms : Prop :=
  ∀ copy : Option Bit,
    lineCommand copy [98, 101, 114] = some ⟨0b1000#4, []⟩ ∧
    lineCommand copy [113, 117, 105, 116] = some ⟨0b1010#4, []⟩ ∧
    lineCommand copy [] = none ∧
    lineCommand copy [48] = some (if copy = some false then ⟨0b0010#4, []⟩ else ⟨0b0000#4, []⟩) ∧
    lineCommand copy [49] = some (if copy = some true then ⟨0b0010#4, []⟩ else ⟨0b0001#4, []⟩) ∧
    (∀ line, line ∉ [[48], [49], [98, 101, 114], [113, 117, 105, 116], []] →
      lineCommand copy line = some ⟨0b0110#4, line⟩) ∧
    actionCommand copy .ampKey = some ⟨0b0100#4, []⟩

/-- R59: the key of override `b`, and the line `b` (its code presumed, assumption log entry 3), post
CLROVR exactly when the override, as it will stand after all commands already posted have been applied,
is `Some(b)`, and SETOVR `b` otherwise. That the collaborator reckons this with a copy of its own is the
model's deduction (assumption log entry 9). -/
def Obligations.ToggleFollowsPostedCommands : Prop :=
  ∀ (s : State) (b : Bit), Legal s →
    let posted : Packet :=
      if s.chan.foldl overrideAfter (overrideOf s.src) = some b then ⟨0b0010#4, []⟩
      else if b then ⟨0b0001#4, []⟩ else ⟨0b0000#4, []⟩
    actionCommand s.ovrCopy (.ovrKey b) = some posted ∧
    actionCommand s.ovrCopy (.line [if b then 49 else 48]) = some posted

/-- R38, R112, R120: the drain applies the commands of the channel in arrival order, stops at the first
QUIT, and leaves what stands behind it in the channel, unapplied. -/
def Obligations.DrainInArrivalOrderUntilQuit : Prop :=
  ∀ (s : State) (before after : List Packet) (q : Packet), s.quit = false →
    (∀ p ∈ before, decodeCommand p ≠ some .quit) → decodeCommand q = some .quit →
    (s.chan = before →
      drain s = { before.foldl (fun t p => applied p t) s with chan := [] }) ∧
    (s.chan = before ++ q :: after →
      drain s = { before.foldl (fun t p => applied p t) s with chan := after, quit := true })

/-- R135, R112: SYS_TICK is one transition (that it takes one step per command is the model's deduction
from R135, assumption log entry 6): from any state whose next act is an external tick, as many steps
as the drain applies commands, and one more, lead to the state of the whole system tick, drain first,
then the frame, then the consume, with no POST between. -/
def Obligations.SysTickIsOneTransition : Prop :=
  ∀ (s : State) (rest : Schedule), nextEvent s = (.clock false true, rest) →
    Host.Core.run Sys2Proof.core ((if s.quit then 0 else drainLength s.chan) + 1) s =
      .next { sysTick s with input := rest }

/-- R135, R40: an ENQW posted before a capturing system tick, with the source otherwise idle, has its
first bit latched in that same tick and the rest of its bits left in the queue. -/
def Obligations.CaptureSeesDrainedWord : Prop :=
  ∀ (s : State) (c : Nat) (text : List Nat), s.quit = false →
    s.chan = [⟨0b0110#4, c :: text⟩] → s.params.queueDepth = none →
    overrideOf s.src = none → s.src.berRem = 0 → s.src.queue = [] →
    (∀ x ∈ c :: text, x ≤ 255) → (next60 s.core.frame).toNat % 12 = 0 →
    (sysTick s).core.lbV = true ∧ (sysTick s).core.lbB = c.testBit 7 ∧
    (sysTick s).src.queue = (wordToBits (c :: text)).tail ∧ (sysTick s).chan = []

/-- R102, R116: a TOGAMP posted before a system tick changes the strength of that tick's own pulse,
inside the window in progress. -/
def Obligations.AmplitudeSampledEveryTick : Prop :=
  ∀ s : State, s.quit = false → s.chan = [⟨0b0100#4, []⟩] →
    (next60 s.core.frame).toNat % 12 ≠ 0 →
    (sysTick s).ampSel = !s.ampSel ∧
    (sysTick s).core.opCode =
      opacityCode (pulse s.core.lbV s.core.lbB (next60 s.core.frame)) (!s.ampSel) ∧
    (sysTick s).core.lbV = s.core.lbV ∧ (sysTick s).core.lbB = s.core.lbB

/-- R36, R40: no step appends part of a word: the queue stays, is emptied by a reset, loses its front
bit to a capturing system tick, or gains at once all the bits of the word of the ENQW that a system
tick drains. -/
def Obligations.QueueNeverPartlyAppended : Prop :=
  ∀ s t : State, step s = .next t →
    t.src.queue = s.src.queue ∨
    (∃ k rest, nextEvent s = (.clock true k, rest) ∧ t.src.queue = []) ∨
    (∃ rest, nextEvent s = (.clock false true, rest) ∧ s.quit = false ∧ s.chan = [] ∧
      (next60 s.core.frame).toNat % 12 = 0 ∧ overrideOf s.src = none ∧ s.src.berRem = 0 ∧
      t.src.queue = s.src.queue.tail) ∨
    (∃ rest p ps text, nextEvent s = (.clock false true, rest) ∧ s.quit = false ∧
      s.chan = p :: ps ∧ decodeCommand p = some (.enqw text) ∧ t.chan = ps ∧
      text ≠ [] ∧ (∀ c ∈ text, c ≤ 255) ∧
      t.src.queue = s.src.queue ++
        text.flatMap (fun c => (List.range 8).map (fun j => c.testBit (7 - j))))

/-- R73, R88, R178: nothing but a reset or a capturing TICK with no override takes a bit: a step that
lowers `ber_rem` or shortens the queue is a system tick that emits its frame (the channel drained, no
QUIT) at a capture phase, and takes one poll or one bit. -/
def Obligations.OnlyCapturesConsume : Prop :=
  ∀ s t : State, Legal s → step s = .next t → (∀ k rest, nextEvent s ≠ (.clock true k, rest)) →
    (t.src.berRem < s.src.berRem →
      (∃ rest, nextEvent s = (.clock false true, rest)) ∧ s.quit = false ∧ s.chan = [] ∧
      t.core.opStb = true ∧ t.core.frame.toNat % 12 = 0 ∧ overrideOf s.src = none ∧
      t.src.berRem + 1 = s.src.berRem ∧ t.src.queue = s.src.queue) ∧
    (t.src.queue.length < s.src.queue.length →
      (∃ rest, nextEvent s = (.clock false true, rest)) ∧ s.quit = false ∧ s.chan = [] ∧
      t.core.opStb = true ∧ t.core.frame.toNat % 12 = 0 ∧ overrideOf s.src = none ∧
      s.src.berRem = 0 ∧ t.src.queue = s.src.queue.tail)

/-- R20, R23, R25, R26: outside a reset, only a SETOVR or CLROVR that a system tick drains changes the
override, only a drained TOGAMP the amplitude, and only a drained QUIT sets `quit`. -/
def Obligations.CompanionBitsChangeByCommandOnly : Prop :=
  ∀ s t : State, step s = .next t → (∀ k rest, nextEvent s ≠ (.clock true k, rest)) →
    ((t.src.ovrV, t.src.ovrB) ≠ (s.src.ovrV, s.src.ovrB) → ∃ rest p,
      nextEvent s = (.clock false true, rest) ∧ s.quit = false ∧ s.chan = p :: t.chan ∧
      ((∃ b, decodeCommand p = some (.setovr b)) ∨ decodeCommand p = some .clrovr)) ∧
    (t.ampSel ≠ s.ampSel → ∃ rest p,
      nextEvent s = (.clock false true, rest) ∧ s.quit = false ∧ s.chan = p :: t.chan ∧
      decodeCommand p = some .togamp) ∧
    (t.quit ≠ s.quit → t.quit = true ∧ ∃ rest p,
      nextEvent s = (.clock false true, rest) ∧ s.quit = false ∧ s.chan = p :: t.chan ∧
      decodeCommand p = some .quit)

/-! ## Invariants and runs -/

/-- R14, R21, R53, R64 and R44, R59 at reset: every reset state, with any parameters and any schedule,
is legal. -/
def Obligations.ResetStatesAreLegal : Prop :=
  ∀ (prm : Config.Params) (l : Schedule), Legal ((State.resetWith prm).withInput l)

/-- R14, R21, R44, R53, R59, R64, R101: every step keeps the invariant: the counter in 0 to 59, the
latch and the override canonical, the overlay on exactly when the latched bit pulses at the current
phase, no reserved code, at most 200 polls left, no finite FIFO overfull, and the collaborator's copy
in agreement with the commands posted. -/
def Obligations.EveryStepKeepsTheInvariant : Prop :=
  ∀ s t : State, Legal s → step s = .next t → Legal t

/-- R120, R136: QUIT is terminal. From a state with `quit` = 1, whatever ticks and posts come, listed or
free, for as long as nobody resets (and the system drives the pins), the run goes on with nothing but
HOLDs: no frame is emitted, and counter, latch, code, override, test, queue, amplitude and channel
stay. -/
def Obligations.QuitIsTerminal : Prop :=
  ∀ (k : Nat) (s : State), s.quit = true →
    (∀ j < k, ∀ u : State, Host.Core.run Sys2Proof.core j s = .next u →
      resetsOrBypasses (nextEvent u).1 = false) →
    stream k s = [] ∧
    ∃ t : State, Host.Core.run Sys2Proof.core k s = .next t ∧ t.quit = true ∧ t.src = s.src ∧
      t.ampSel = s.ampSel ∧ t.chan = s.chan ∧ t.core.frame = s.core.frame ∧
      t.core.lbV = s.core.lbV ∧ t.core.lbB = s.core.lbB ∧ t.core.opCode = s.core.opCode
end

