-- ==== Sys2Proof/Laws/Decode.lean ====
section
/-! SUPPORT. The fields of a packed word, and what each encoded word decodes to. -/

namespace Sys2Proof

variable (r t v b a : Bit)

@[simp] theorem packStimulus_rst : Stimulus.rst (packStimulus r t v b a) = r := by
  cases r <;> cases t <;> cases v <;> cases b <;> cases a <;> rfl
@[simp] theorem packStimulus_tick : Stimulus.tick (packStimulus r t v b a) = t := by
  cases r <;> cases t <;> cases v <;> cases b <;> cases a <;> rfl
@[simp] theorem packStimulus_srcValid : Stimulus.srcValid (packStimulus r t v b a) = v := by
  cases r <;> cases t <;> cases v <;> cases b <;> cases a <;> rfl
@[simp] theorem packStimulus_srcBit : Stimulus.srcBit (packStimulus r t v b a) = b := by
  cases r <;> cases t <;> cases v <;> cases b <;> cases a <;> rfl
@[simp] theorem packStimulus_ampSel : Stimulus.ampSel (packStimulus r t v b a) = a := by
  cases r <;> cases t <;> cases v <;> cases b <;> cases a <;> rfl

@[simp] theorem packHeader_bit (cop : BitVec 3) : Header.bit (packHeader cop b) = b := by
  cases b <;> revert cop <;> decide
@[simp] theorem packHeader_cop (cop : BitVec 3) : Header.cop (packHeader cop b) = cop.toNat := by
  cases b <;> revert cop <;> decide

/-- A stimulus word with `rst` = 1 is RST. -/
theorem decodeStimulus_of_rst (w : Stimulus) (h : Stimulus.rst w = true) :
    decodeStimulus w =
      .rst (Stimulus.tick w) (Stimulus.srcValid w) (Stimulus.srcBit w) (Stimulus.ampSel w) := by
  simp [decodeStimulus, h]

/-- A stimulus word with `rst` = 0 and `tick` = 1 is TICK. -/
theorem decodeStimulus_of_tick (w : Stimulus) (h : Stimulus.rst w = false)
    (ht : Stimulus.tick w = true) :
    decodeStimulus w = .tick (Stimulus.srcValid w) (Stimulus.srcBit w) (Stimulus.ampSel w) := by
  simp [decodeStimulus, h, ht]

/-- A stimulus word with `rst` = 0 and `tick` = 0 is HOLD. -/
theorem decodeStimulus_of_hold (w : Stimulus) (h : Stimulus.rst w = false)
    (ht : Stimulus.tick w = false) :
    decodeStimulus w = .hold (Stimulus.srcValid w) (Stimulus.srcBit w) (Stimulus.ampSel w) := by
  simp [decodeStimulus, h, ht]

/-- A command never decodes to a cycle operation. -/
theorem decodeCommand_cases (p : Packet) (i : Instr) (h : decodeCommand p = some i) :
    (∃ b, i = .setovr b) ∨ i = .clrovr ∨ i = .togamp ∨ i = .enqw p.text ∨ i = .ber ∨
      i = .quit := by
  unfold decodeCommand at h
  split_ifs at h <;> simp_all
  simp [← h]

end Sys2Proof
end

