-- ==== Sys2Proof/Laws/State.lean ====
section
/-! SUPPORT. The fields of every named update of the state and of the reset states, so that no proof
unfolds a record update. -/

namespace Sys2Proof.Machine

variable (s : State)

/-! `State.withCore`. -/

@[simp] theorem State.withCore_core (x : CoreRegs) : (s.withCore x).core = x := rfl
@[simp] theorem State.withCore_src (x : CoreRegs) : (s.withCore x).src = s.src := rfl
@[simp] theorem State.withCore_ampSel (x : CoreRegs) : (s.withCore x).ampSel = s.ampSel := rfl
@[simp] theorem State.withCore_chan (x : CoreRegs) : (s.withCore x).chan = s.chan := rfl
@[simp] theorem State.withCore_quit (x : CoreRegs) : (s.withCore x).quit = s.quit := rfl
@[simp] theorem State.withCore_ovrCopy (x : CoreRegs) : (s.withCore x).ovrCopy = s.ovrCopy := rfl
@[simp] theorem State.withCore_params (x : CoreRegs) : (s.withCore x).params = s.params := rfl
@[simp] theorem State.withCore_input (x : CoreRegs) : (s.withCore x).input = s.input := rfl
@[simp] theorem State.withCore_self : s.withCore s.core = s := rfl
@[simp] theorem State.withCore_twice (x y : CoreRegs) : (s.withCore x).withCore y = s.withCore y := rfl

/-! `State.withSrc`. -/

@[simp] theorem State.withSrc_core (x : BitSource) : (s.withSrc x).core = s.core := rfl
@[simp] theorem State.withSrc_src (x : BitSource) : (s.withSrc x).src = x := rfl
@[simp] theorem State.withSrc_ampSel (x : BitSource) : (s.withSrc x).ampSel = s.ampSel := rfl
@[simp] theorem State.withSrc_chan (x : BitSource) : (s.withSrc x).chan = s.chan := rfl
@[simp] theorem State.withSrc_quit (x : BitSource) : (s.withSrc x).quit = s.quit := rfl
@[simp] theorem State.withSrc_ovrCopy (x : BitSource) : (s.withSrc x).ovrCopy = s.ovrCopy := rfl
@[simp] theorem State.withSrc_params (x : BitSource) : (s.withSrc x).params = s.params := rfl
@[simp] theorem State.withSrc_input (x : BitSource) : (s.withSrc x).input = s.input := rfl
@[simp] theorem State.withSrc_self : s.withSrc s.src = s := rfl
@[simp] theorem State.withSrc_twice (x y : BitSource) : (s.withSrc x).withSrc y = s.withSrc y := rfl

/-! `State.withAmpSel`. -/

@[simp] theorem State.withAmpSel_core (x : Bit) : (s.withAmpSel x).core = s.core := rfl
@[simp] theorem State.withAmpSel_src (x : Bit) : (s.withAmpSel x).src = s.src := rfl
@[simp] theorem State.withAmpSel_ampSel (x : Bit) : (s.withAmpSel x).ampSel = x := rfl
@[simp] theorem State.withAmpSel_chan (x : Bit) : (s.withAmpSel x).chan = s.chan := rfl
@[simp] theorem State.withAmpSel_quit (x : Bit) : (s.withAmpSel x).quit = s.quit := rfl
@[simp] theorem State.withAmpSel_ovrCopy (x : Bit) : (s.withAmpSel x).ovrCopy = s.ovrCopy := rfl
@[simp] theorem State.withAmpSel_params (x : Bit) : (s.withAmpSel x).params = s.params := rfl
@[simp] theorem State.withAmpSel_input (x : Bit) : (s.withAmpSel x).input = s.input := rfl
@[simp] theorem State.withAmpSel_self : s.withAmpSel s.ampSel = s := rfl
@[simp] theorem State.withAmpSel_twice (x y : Bit) : (s.withAmpSel x).withAmpSel y = s.withAmpSel y := rfl

/-! `State.withChan`. -/

@[simp] theorem State.withChan_core (x : List Packet) : (s.withChan x).core = s.core := rfl
@[simp] theorem State.withChan_src (x : List Packet) : (s.withChan x).src = s.src := rfl
@[simp] theorem State.withChan_ampSel (x : List Packet) : (s.withChan x).ampSel = s.ampSel := rfl
@[simp] theorem State.withChan_chan (x : List Packet) : (s.withChan x).chan = x := rfl
@[simp] theorem State.withChan_quit (x : List Packet) : (s.withChan x).quit = s.quit := rfl
@[simp] theorem State.withChan_ovrCopy (x : List Packet) : (s.withChan x).ovrCopy = s.ovrCopy := rfl
@[simp] theorem State.withChan_params (x : List Packet) : (s.withChan x).params = s.params := rfl
@[simp] theorem State.withChan_input (x : List Packet) : (s.withChan x).input = s.input := rfl
@[simp] theorem State.withChan_self : s.withChan s.chan = s := rfl
@[simp] theorem State.withChan_twice (x y : List Packet) : (s.withChan x).withChan y = s.withChan y := rfl

/-! `State.withQuit`. -/

@[simp] theorem State.withQuit_core (x : Bit) : (s.withQuit x).core = s.core := rfl
@[simp] theorem State.withQuit_src (x : Bit) : (s.withQuit x).src = s.src := rfl
@[simp] theorem State.withQuit_ampSel (x : Bit) : (s.withQuit x).ampSel = s.ampSel := rfl
@[simp] theorem State.withQuit_chan (x : Bit) : (s.withQuit x).chan = s.chan := rfl
@[simp] theorem State.withQuit_quit (x : Bit) : (s.withQuit x).quit = x := rfl
@[simp] theorem State.withQuit_ovrCopy (x : Bit) : (s.withQuit x).ovrCopy = s.ovrCopy := rfl
@[simp] theorem State.withQuit_params (x : Bit) : (s.withQuit x).params = s.params := rfl
@[simp] theorem State.withQuit_input (x : Bit) : (s.withQuit x).input = s.input := rfl
@[simp] theorem State.withQuit_self : s.withQuit s.quit = s := rfl
@[simp] theorem State.withQuit_twice (x y : Bit) : (s.withQuit x).withQuit y = s.withQuit y := rfl

/-! `State.withOvrCopy`. -/

@[simp] theorem State.withOvrCopy_core (x : Option Bit) : (s.withOvrCopy x).core = s.core := rfl
@[simp] theorem State.withOvrCopy_src (x : Option Bit) : (s.withOvrCopy x).src = s.src := rfl
@[simp] theorem State.withOvrCopy_ampSel (x : Option Bit) : (s.withOvrCopy x).ampSel = s.ampSel := rfl
@[simp] theorem State.withOvrCopy_chan (x : Option Bit) : (s.withOvrCopy x).chan = s.chan := rfl
@[simp] theorem State.withOvrCopy_quit (x : Option Bit) : (s.withOvrCopy x).quit = s.quit := rfl
@[simp] theorem State.withOvrCopy_ovrCopy (x : Option Bit) : (s.withOvrCopy x).ovrCopy = x := rfl
@[simp] theorem State.withOvrCopy_params (x : Option Bit) : (s.withOvrCopy x).params = s.params := rfl
@[simp] theorem State.withOvrCopy_input (x : Option Bit) : (s.withOvrCopy x).input = s.input := rfl
@[simp] theorem State.withOvrCopy_self : s.withOvrCopy s.ovrCopy = s := rfl
@[simp] theorem State.withOvrCopy_twice (x y : Option Bit) : (s.withOvrCopy x).withOvrCopy y = s.withOvrCopy y := rfl

/-! `State.withInput`. -/

@[simp] theorem State.withInput_core (x : Schedule) : (s.withInput x).core = s.core := rfl
@[simp] theorem State.withInput_src (x : Schedule) : (s.withInput x).src = s.src := rfl
@[simp] theorem State.withInput_ampSel (x : Schedule) : (s.withInput x).ampSel = s.ampSel := rfl
@[simp] theorem State.withInput_chan (x : Schedule) : (s.withInput x).chan = s.chan := rfl
@[simp] theorem State.withInput_quit (x : Schedule) : (s.withInput x).quit = s.quit := rfl
@[simp] theorem State.withInput_ovrCopy (x : Schedule) : (s.withInput x).ovrCopy = s.ovrCopy := rfl
@[simp] theorem State.withInput_params (x : Schedule) : (s.withInput x).params = s.params := rfl
@[simp] theorem State.withInput_input (x : Schedule) : (s.withInput x).input = x := rfl
@[simp] theorem State.withInput_self : s.withInput s.input = s := rfl
@[simp] theorem State.withInput_twice (x y : Schedule) : (s.withInput x).withInput y = s.withInput y := rfl

/-! The reset states. -/

variable (prm : Config.Params)

@[simp] theorem State.resetWith_core : (State.resetWith prm).core = CoreRegs.reset prm := rfl
@[simp] theorem State.resetWith_src : (State.resetWith prm).src = BitSource.reset := rfl
@[simp] theorem State.resetWith_ampSel : (State.resetWith prm).ampSel = prm.ampSelReset := rfl
@[simp] theorem State.resetWith_chan : (State.resetWith prm).chan = [] := rfl
@[simp] theorem State.resetWith_quit : (State.resetWith prm).quit = false := rfl
@[simp] theorem State.resetWith_ovrCopy : (State.resetWith prm).ovrCopy = none := rfl
@[simp] theorem State.resetWith_params : (State.resetWith prm).params = prm := rfl
@[simp] theorem State.resetWith_input : (State.resetWith prm).input = ⟨[], 0⟩ := rfl
@[simp] theorem CoreRegs.reset_lbV : (CoreRegs.reset prm).lbV = false := rfl
@[simp] theorem CoreRegs.reset_lbB : (CoreRegs.reset prm).lbB = false := rfl
@[simp] theorem CoreRegs.reset_opCode : (CoreRegs.reset prm).opCode = 0#2 := rfl
@[simp] theorem CoreRegs.reset_opStb : (CoreRegs.reset prm).opStb = false := rfl

/-- The reset value of the counter is `FRAME_RESET` itself: nothing is lost in its 6 bits. -/
@[simp] theorem CoreRegs.reset_frame_toNat :
    (CoreRegs.reset prm).frame.toNat = prm.frameReset.val := by
  have h := prm.frameReset.isLt
  simp only [CoreRegs.reset, BitVec.toNat_ofNat]
  omega

end Sys2Proof.Machine
end

