-- ==== Sys2Proof/Laws/Ops.lean ====
section
/-! SUPPORT. One lemma per shared operation, saying once what it can do. -/

namespace Sys2Proof.Machine

/-! The frame counter. -/

theorem next60_toNat (f : Phase) :
    (next60 f).toNat = if 59 ≤ f.toNat then 0 else f.toNat + 1 := by
  simp only [next60, frameMod]
  split
  · rfl
  · rename_i h
    rw [BitVec.toNat_add]
    simp at h ⊢
    omega

theorem next60_le (f : Phase) : (next60 f).toNat ≤ 59 := by
  rw [next60_toNat]; split <;> omega

@[simp] theorem isCap_eq_true (p : Phase) : isCap p = true ↔ p.toNat % 12 = 0 := by
  simp [isCap]

@[simp] theorem isCap_eq_false (p : Phase) : isCap p = false ↔ p.toNat % 12 ≠ 0 := by
  simp [isCap]

/-! The modulator. -/

@[simp] theorem pulse_none (b : Bit) (p : Phase) : pulse false b p = false := rfl

@[simp] theorem pulse_zero (p : Phase) : pulse true false p = (p.toNat % 4 == 1) := by
  simp [pulse]

@[simp] theorem pulse_one (p : Phase) : pulse true true p = (p.toNat % 3 == 2) := by
  simp [pulse]

/-- No tone pulses at a capture phase, whatever is latched. -/
theorem pulse_at_capture (v b : Bit) (p : Phase) (h : isCap p = true) : pulse v b p = false := by
  rw [isCap_eq_true] at h
  cases v <;> cases b <;> simp <;> omega

@[simp] theorem opacityCode_bit1 (pl a : Bit) : (opacityCode pl a).getLsbD 1 = pl := by
  cases pl <;> cases a <;> rfl

@[simp] theorem opacityCode_bit0 (pl a : Bit) : (opacityCode pl a).getLsbD 0 = (pl && a) := by
  cases pl <;> cases a <;> rfl

@[simp] theorem opacityCode_off (a : Bit) : opacityCode false a = 0b00#2 := by
  cases a <;> rfl

theorem opacityCode_not_reserved (pl a : Bit) : opacityCode pl a ≠ 0b01#2 := by
  cases pl <;> cases a <;> decide

/-! The core's register updates. -/

@[simp] theorem coreHold_frame (c : CoreRegs) : (coreHold c).frame = c.frame := rfl
@[simp] theorem coreHold_lbV (c : CoreRegs) : (coreHold c).lbV = c.lbV := rfl
@[simp] theorem coreHold_lbB (c : CoreRegs) : (coreHold c).lbB = c.lbB := rfl
@[simp] theorem coreHold_opCode (c : CoreRegs) : (coreHold c).opCode = c.opCode := rfl
@[simp] theorem coreHold_opStb (c : CoreRegs) : (coreHold c).opStb = false := rfl

variable (v b a : Bit) (c : CoreRegs)

@[simp] theorem coreTick_frame : (coreTick v b a c).frame = next60 c.frame := rfl
@[simp] theorem coreTick_lbV :
    (coreTick v b a c).lbV = if isCap (next60 c.frame) then v else c.lbV := rfl
@[simp] theorem coreTick_lbB :
    (coreTick v b a c).lbB = if isCap (next60 c.frame) then v && b else c.lbB := rfl
@[simp] theorem coreTick_opCode :
    (coreTick v b a c).opCode =
      opacityCode (pulse (coreTick v b a c).lbV (coreTick v b a c).lbB (next60 c.frame)) a := rfl
@[simp] theorem coreTick_opStb : (coreTick v b a c).opStb = true := rfl

/-- TICK reads neither output register. -/
@[simp] theorem coreTick_coreHold : coreTick v b a (coreHold c) = coreTick v b a c := rfl

/-! The bit source. -/

@[simp] theorem optionalBit_pair (o : Option Bit) : optionalBit (validOf o) (bitOf o) = o := by
  cases o <;> rfl

theorem overrideOf_eq_none (e : BitSource) : overrideOf e = none ↔ e.ovrV = false := by
  cases h : e.ovrV <;> simp [overrideOf, optionalBit, h]

theorem peek_of_override (e : BitSource) (h : e.ovrV = true) : peek e = some e.ovrB := by
  simp [peek, h]

theorem peek_of_ber (e : BitSource) (h : e.ovrV = false) (hn : 0 < e.berRem) :
    peek e = some ((e.berRem - 1) % 2 == 1) := by
  simp [peek, h, hn]

theorem peek_of_queue (e : BitSource) (h : e.ovrV = false) (hn : e.berRem = 0) :
    peek e = e.queue.head? := by
  simp [peek, h, hn]

theorem consume_of_override (e : BitSource) (h : e.ovrV = true) : consume e = e := by
  simp [consume, h]

theorem consume_of_ber (e : BitSource) (h : e.ovrV = false) (hn : 0 < e.berRem) :
    consume e = { e with berRem := e.berRem - 1 } := by
  simp [consume, h, hn]

theorem consume_of_queue (e : BitSource) (h : e.ovrV = false) (hn : e.berRem = 0) :
    consume e = { e with queue := e.queue.tail } := by
  simp [consume, h, hn]

@[simp] theorem consume_ovrV (e : BitSource) : (consume e).ovrV = e.ovrV := by
  unfold consume; split_ifs <;> rfl

@[simp] theorem consume_ovrB (e : BitSource) : (consume e).ovrB = e.ovrB := by
  unfold consume; split_ifs <;> rfl

/-- What `consume` does to the queue: it drops the front bit or nothing. -/
theorem consume_queue (e : BitSource) :
    (consume e).queue = e.queue ∨ (consume e).queue = e.queue.tail := by
  unfold consume; split_ifs <;> simp

theorem textAccepted_iff (text : List Nat) :
    textAccepted text = true ↔ text ≠ [] ∧ ∀ c ∈ text, c ≤ 255 := by
  simp [textAccepted]

theorem queueHasRoom_iff (depth : Option Nat) (e : BitSource) (n : Nat) :
    queueHasRoom depth e n = true ↔ ∀ d, depth = some d → e.queue.length + n ≤ d := by
  cases depth <;> simp [queueHasRoom]

/-- An ENQW appends the whole word or changes nothing. -/
theorem enqueueWord_cases (depth : Option Nat) (text : List Nat) (e : BitSource) :
    enqueueWord depth text e = e ∨
    (textAccepted text = true ∧ queueHasRoom depth e (8 * text.length) = true ∧
      enqueueWord depth text e = { e with queue := e.queue ++ wordToBits text }) := by
  by_cases h : (textAccepted text && queueHasRoom depth e (8 * text.length)) = true
  · right
    simp only [Bool.and_eq_true] at h
    exact ⟨h.1, h.2, by simp [enqueueWord, h.1, h.2]⟩
  · left
    simp only [enqueueWord, charBits, h]
    rfl

@[simp] theorem charToBits_length (n : Nat) : (charToBits n).length = 8 := rfl

@[simp] theorem wordToBits_length (text : List Nat) :
    (wordToBits text).length = 8 * text.length := by
  induction text with
  | nil => rfl
  | cons n ns ih =>
    simp only [wordToBits, List.flatMap_cons, List.length_append, charToBits_length,
      List.length_cons] at ih ⊢
    omega

/-! The input collaborator. -/

/-- An action changes nothing or is one POST. -/
theorem collaborate_cases (x : Action) (s : State) :
    collaborate x s = s ∨
    ∃ p, actionCommand s.ovrCopy x = some p ∧ quitPosted s = false ∧ collaborate x s = post p s := by
  unfold collaborate
  cases h : actionCommand s.ovrCopy x with
  | none => exact .inl rfl
  | some p =>
    cases hq : quitPosted s with
    | true => exact .inl rfl
    | false => exact .inr ⟨p, rfl, rfl, rfl⟩

/-- An action writes no register but the channel and the collaborator's copy. -/
theorem collaborate_frame (x : Action) (s : State) :
    (collaborate x s).core = s.core ∧ (collaborate x s).src = s.src ∧
    (collaborate x s).ampSel = s.ampSel ∧ (collaborate x s).quit = s.quit ∧
    (collaborate x s).params = s.params ∧ (collaborate x s).input = s.input := by
  unfold collaborate
  cases actionCommand s.ovrCopy x with
  | none => exact ⟨rfl, rfl, rfl, rfl, rfl, rfl⟩
  | some p => cases quitPosted s <;> exact ⟨rfl, rfl, rfl, rfl, rfl, rfl⟩

@[simp] theorem post_core (p : Packet) (s : State) : (post p s).core = s.core := rfl
@[simp] theorem post_src (p : Packet) (s : State) : (post p s).src = s.src := rfl
@[simp] theorem post_ampSel (p : Packet) (s : State) : (post p s).ampSel = s.ampSel := rfl
@[simp] theorem post_chan (p : Packet) (s : State) : (post p s).chan = s.chan ++ [p] := rfl
@[simp] theorem post_quit (p : Packet) (s : State) : (post p s).quit = s.quit := rfl
@[simp] theorem post_ovrCopy (p : Packet) (s : State) :
    (post p s).ovrCopy = overrideAfter s.ovrCopy p := rfl
@[simp] theorem post_params (p : Packet) (s : State) : (post p s).params = s.params := rfl
@[simp] theorem post_input (p : Packet) (s : State) : (post p s).input = s.input := rfl

/-- The companion's reset completes the core's: together they give the reset state (R29). -/
theorem companionReset_eq (s : State) :
    companionReset (s.withCore (CoreRegs.reset s.params)) =
      (State.resetWith s.params).withInput s.input := rfl

end Sys2Proof.Machine
end

