-- ==== Sys2Proof/Laws/PerInstr.lean ====
section
/-! SUPPORT. The family `RowOfTable`: every encoding of an operation shows the fixed bits of its row of
the opcode table (R51), in the row's format. -/

namespace Sys2Proof.Laws

/-- The encoded word of an operation shows the pattern of a row: its format, and the bits under the
row's mask. -/
def showsRow (e : Encoded) (r : OpcodeRow) : Bool :=
  match e with
  | .stimulus w => r.format == .s && r.selects w.toNat
  | .command p => r.format == .c && r.selects p.header.toNat

namespace RowOfTable

/-- The operation's encoding shows the row of its mnemonic, and the table has exactly one such row. -/
def Statement (i : Instr) : Prop :=
  (opcodeRows.filter (fun r => r.mnemonic == i.mnemonic && showsRow (encode i) r)).length = 1

theorem rst (t v b a : Bit) : Statement (.rst t v b a) := by
  cases t <;> cases v <;> cases b <;> cases a <;> (unfold Statement; decide)

theorem hold (v b a : Bit) : Statement (.hold v b a) := by
  cases v <;> cases b <;> cases a <;> (unfold Statement; decide)

theorem tick (v b a : Bit) : Statement (.tick v b a) := by
  cases v <;> cases b <;> cases a <;> (unfold Statement; decide)

theorem setovr (b : Bit) : Statement (.setovr b) := by
  cases b <;> (unfold Statement; decide)

theorem clrovr : Statement .clrovr := by
  unfold Statement; decide

theorem togamp : Statement .togamp := by
  unfold Statement; decide

theorem enqw (text : List Nat) : Statement (.enqw text) := by
  show Statement (.enqw [])
  unfold Statement; decide

theorem ber : Statement .ber := by
  unfold Statement; decide

theorem quit : Statement .quit := by
  unfold Statement; decide

end RowOfTable

end Sys2Proof.Laws
end

