-- ==== Sys2Proof/Laws/System.lean ====
section
/-! SUPPORT. What one step can do, said once. -/

namespace Sys2Proof.Machine

/-- A cycle operation is the core's whole step and nothing else (R133). -/
theorem exec_decodeStimulus (w : Stimulus) (s : State) :
    exec (decodeStimulus w) s = .next (s.withCore (coreStep s.params s.core w).1) := by
  cases hr : Stimulus.rst w with
  | true => simp [decodeStimulus, coreStep, hr, exec, execRst]
  | false =>
    cases ht : Stimulus.tick w with
    | true => simp [decodeStimulus, coreStep, hr, ht, exec, execTick]
    | false => simp [decodeStimulus, coreStep, hr, ht, exec, execHold]

/-- Applying one command always goes on. -/
theorem applyCommand_eq (p : Packet) (s : State) : applyCommand p s = .next (applied p s) := by
  have hx : ∃ t, applyCommand p s = .next t := by
    unfold applyCommand
    cases decodeCommand p with
    | none => exact ⟨s, rfl⟩
    | some i => cases i <;> exact ⟨_, rfl⟩
  obtain ⟨t, ht⟩ := hx
  simp [applied, ht]

/-- The next state of a system cycle with `rst` = 1 (R138). -/
theorem clockCycle_rst (t : Bit) (rest : Schedule) (s : State) :
    clockCycle true t rest s = .next ((State.resetWith s.params).withInput rest) := by
  simp only [clockCycle, if_true, exec_decodeStimulus, onNext]
  simp [coreStep, systemStimulus, companionReset, State.withInput, State.withCore,
    State.resetWith]

/-- The next state of a cycle in which a system tick applies one command (R112). -/
theorem clockCycle_drain (rest : Schedule) (s : State) (p : Packet) (ps : List Packet)
    (hq : s.quit = false) (hc : s.chan = p :: ps) :
    clockCycle false true rest s =
      .next (applied p (((s.withCore (coreHold s.core)).withChan ps).withInput
        (putFirst (.clock false true) rest))) := by
  simp [clockCycle, hq, hc, applyCommand_eq]

/-- The next state of the cycle in which a system tick emits its frame (R135). -/
theorem clockCycle_tick (rest : Schedule) (s : State) (hq : s.quit = false)
    (hc : s.chan = []) :
    clockCycle false true rest s = .next ((tickAfterDrain s).withInput rest) := by
  have hw : systemStimulus false true (s.withInput rest) = systemStimulus false true s := rfl
  have hs : (coreStep s.params s.core (systemStimulus false true s)).1 =
      coreTick (validOf (peek s.src)) (bitOf (peek s.src)) s.ampSel s.core := by
    simp [coreStep, systemStimulus]
  simp only [clockCycle, hq, hc, exec_decodeStimulus, onNext, tickAfterDrain, hw,
    State.withInput_core, State.withInput_params, hs, Bool.not_false, Bool.and_self, if_true,
    Bool.false_eq_true, if_false]
  cases srcTake (systemStimulus false true s) s.core <;> rfl

/-- The next state of a cycle of the system in which the core sees HOLD (R136, R137). -/
theorem clockCycle_hold (t : Bit) (rest : Schedule) (s : State)
    (h : t = false ∨ s.quit = true) :
    clockCycle false t rest s = .next ((s.withInput rest).withCore (coreHold s.core)) := by
  have hg : (t && !s.quit) = false := by
    rcases h with h | h <;> simp [h]
  simp [clockCycle, hg, exec_decodeStimulus, coreStep, systemStimulus]

/-! The step by the kind of the next act. -/

theorem step_of_act (s : State) (a : Action) (rest : Schedule)
    (h : nextEvent s = (.act a, rest)) : step s = .next (collaborate a (s.withInput rest)) := by
  unfold step systemStep; rw [h]

theorem step_of_pins (s : State) (w : Stimulus) (rest : Schedule)
    (h : nextEvent s = (.pins w, rest)) : step s = exec (decodeStimulus w) (s.withInput rest) := by
  unfold step systemStep; rw [h]

theorem step_of_clock (s : State) (r k : Bit) (rest : Schedule)
    (h : nextEvent s = (.clock r k, rest)) : step s = clockCycle r k rest s := by
  unfold step systemStep; rw [h]

/-- A run goes on from the state one step reaches. -/
theorem run_of_step (k : Nat) (s t : State) (h : step s = .next t) :
    Host.Core.run Sys2Proof.core (k + 1) s = Host.Core.run Sys2Proof.core k t := by
  have hc : Sys2Proof.core.step s = .next t := h
  simp only [Host.Core.run]
  rw [hc]

/-! The schedule. -/

@[simp] theorem putFirst_listed (e : Event) (l : Schedule) : (putFirst e l).listed = e :: l.listed := rfl
@[simp] theorem putFirst_free (e : Event) (l : Schedule) : (putFirst e l).free = l.free := rfl
@[simp] theorem upcoming_putFirst (e : Event) (l : Schedule) : upcoming (putFirst e l) = (e, l) := rfl

/-- The first clock cycle of a schedule is never a POST. -/
theorem firstCycle_not_act (l : Schedule) (a : Action) : (firstCycle l).1 ≠ .act a := by
  have h : ∀ (es : List Event) (n : Nat), (firstCycleFrom es n).1 ≠ .act a := by
    intro es n
    induction es with
    | nil => simp [firstCycleFrom, freeCycle]
    | cons e es ih =>
      cases e with
      | act x => exact ih
      | clock r k => simp [firstCycleFrom]
      | pins w => simp [firstCycleFrom]
  exact h _ _

/-- Behind waiting acts, the first listed clock cycle is taken and nothing else. -/
theorem firstCycleFrom_listed (as : List Action) (c : Event) (cs : List Event) (n : Nat)
    (hc : ∀ a, c ≠ .act a) :
    firstCycleFrom (as.map .act ++ c :: cs) n = (c, ⟨as.map .act ++ cs, n⟩) := by
  induction as with
  | nil =>
    cases c with
    | act a => exact absurd rfl (hc a)
    | clock r k => rfl
    | pins w => rfl
  | cons a as ih => simp only [List.map_cons, List.cons_append, firstCycleFrom, ih]; rfl

/-- Behind waiting acts with no listed clock cycle, the free environment's next cycle is taken. -/
theorem firstCycleFrom_free (as : List Action) (n : Nat) :
    firstCycleFrom (as.map .act) n = (freeCycle n, ⟨as.map .act, n + 1⟩) := by
  induction as with
  | nil => rfl
  | cons a as ih => simp only [List.map_cons, firstCycleFrom, ih]; rfl

/-- A POST is served only as the schedule's first act and when it need not wait. -/
theorem nextEvent_act (s : State) (a : Action) (rest : Schedule)
    (h : nextEvent s = (.act a, rest)) :
    mustWait a s = false ∧ upcoming s.input = (.act a, rest) := by
  unfold nextEvent at h
  split at h
  · rename_i x r hin
    split_ifs at h with hw
    · exact absurd (congrArg Prod.fst h) (firstCycle_not_act _ a)
    · simp only [Prod.mk.injEq, Event.act.injEq] at h
      obtain ⟨rfl, rfl⟩ := h
      exact ⟨by simpa using hw, hin⟩
  · simp at h
  · simp at h

/-- A collaborator that must wait lets the first clock cycle of the schedule go first (R44). -/
theorem nextEvent_of_mustWait (s : State) (a : Action) (es : List Event)
    (h : s.input.listed = .act a :: es) (hw : mustWait a s = true) :
    nextEvent s = firstCycle s.input := by
  simp [nextEvent, upcoming, h, hw, firstCycle]

/-- A clock event stands first until it is served: the next act is that cycle. -/
@[simp] theorem nextEvent_clock (s : State) (r k : Bit) (rest : Schedule) :
    nextEvent (s.withInput (putFirst (.clock r k) rest)) = (.clock r k, rest) := rfl

/-- One step is one of six things. -/
theorem step_cases (s t : State) (h : step s = .next t) :
    (∃ a rest, nextEvent s = (.act a, rest) ∧ t = collaborate a (s.withInput rest)) ∨
    (∃ w rest, nextEvent s = (.pins w, rest) ∧
      t = (s.withInput rest).withCore (coreStep s.params s.core w).1) ∨
    (∃ k rest, nextEvent s = (.clock true k, rest) ∧
      t = (State.resetWith s.params).withInput rest) ∨
    (∃ rest p ps, nextEvent s = (.clock false true, rest) ∧ s.quit = false ∧ s.chan = p :: ps ∧
      t = applied p (((s.withCore (coreHold s.core)).withChan ps).withInput
        (putFirst (.clock false true) rest))) ∨
    (∃ rest, nextEvent s = (.clock false true, rest) ∧ s.quit = false ∧ s.chan = [] ∧
      t = (tickAfterDrain s).withInput rest) ∨
    (∃ k rest, nextEvent s = (.clock false k, rest) ∧ (k = false ∨ s.quit = true) ∧
      t = (s.withInput rest).withCore (coreHold s.core)) := by
  unfold step systemStep at h
  obtain ⟨e, rest, hrest⟩ : ∃ e rest, nextEvent s = (e, rest) := ⟨_, _, rfl⟩
  rw [hrest] at h
  cases e with
  | act a => exact .inl ⟨a, rest, hrest, by injection h with h; exact h.symm⟩
  | pins w =>
    dsimp only at h
    rw [exec_decodeStimulus] at h
    exact .inr (.inl ⟨w, rest, hrest, by injection h with h; exact h.symm⟩)
  | clock r k =>
    cases r with
    | true =>
      simp only [clockCycle_rst] at h
      exact .inr (.inr (.inl ⟨k, rest, hrest, by injection h with h; exact h.symm⟩))
    | false =>
      by_cases hk : k = false ∨ s.quit = true
      · simp only [clockCycle_hold k rest s hk] at h
        exact .inr (.inr (.inr (.inr (.inr
          ⟨k, rest, hrest, hk, by injection h with h; exact h.symm⟩))))
      · have hk1 : k = true := by cases k <;> simp_all
        have hq : s.quit = false := by cases hq : s.quit <;> simp_all
        subst hk1
        cases hc : s.chan with
        | nil =>
          simp only [clockCycle_tick rest s hq hc] at h
          exact .inr (.inr (.inr (.inr (.inl
            ⟨rest, hrest, hq, rfl, by injection h with h; exact h.symm⟩))))
        | cons p ps =>
          simp only [clockCycle_drain rest s p ps hq hc] at h
          exact .inr (.inr (.inr (.inl
            ⟨rest, p, ps, hrest, hq, rfl, by injection h with h; exact h.symm⟩)))

/-! What applying one command can do, field by field. -/

/-- A command changes no core register, no channel entry, no parameter and no schedule. -/
theorem applied_frame (p : Packet) (s : State) :
    (applied p s).core = s.core ∧ (applied p s).chan = s.chan ∧
    (applied p s).ovrCopy = s.ovrCopy ∧ (applied p s).params = s.params ∧
    (applied p s).input = s.input := by
  unfold applied applyCommand
  cases h : decodeCommand p with
  | none => exact ⟨rfl, rfl, rfl, rfl, rfl⟩
  | some i =>
    rcases decodeCommand_cases p i h with ⟨b, rfl⟩ | rfl | rfl | rfl | rfl | rfl <;>
      exact ⟨rfl, rfl, rfl, rfl, rfl⟩

@[simp] theorem applied_core (p : Packet) (s : State) : (applied p s).core = s.core :=
  (applied_frame p s).1
@[simp] theorem applied_chan (p : Packet) (s : State) : (applied p s).chan = s.chan :=
  (applied_frame p s).2.1
@[simp] theorem applied_ovrCopy (p : Packet) (s : State) : (applied p s).ovrCopy = s.ovrCopy :=
  (applied_frame p s).2.2.1
@[simp] theorem applied_params (p : Packet) (s : State) : (applied p s).params = s.params :=
  (applied_frame p s).2.2.2.1
@[simp] theorem applied_input (p : Packet) (s : State) : (applied p s).input = s.input :=
  (applied_frame p s).2.2.2.2

/-- What applying one command does: the effect of the command its header decodes to, or none. -/
theorem applied_cases (p : Packet) (s : State) :
    (decodeCommand p = none ∧ applied p s = s) ∨
    (∃ b, decodeCommand p = some (.setovr b) ∧ applied p s = s.withSrc (setOverride b s.src)) ∨
    (decodeCommand p = some .clrovr ∧ applied p s = s.withSrc (clearOverride s.src)) ∨
    (decodeCommand p = some .togamp ∧ applied p s = s.withAmpSel (!s.ampSel)) ∨
    (decodeCommand p = some (.enqw p.text) ∧
      applied p s = s.withSrc (enqueueWord s.params.queueDepth p.text s.src)) ∨
    (decodeCommand p = some .ber ∧ applied p s = s.withSrc (startBer s.src)) ∨
    (decodeCommand p = some .quit ∧ applied p s = s.withQuit true) := by
  unfold applied applyCommand
  cases h : decodeCommand p with
  | none => exact .inl ⟨rfl, rfl⟩
  | some i =>
    rcases decodeCommand_cases p i h with ⟨b, rfl⟩ | rfl | rfl | rfl | rfl | rfl <;>
      simp [exec, execSetovr, execClrovr, execTogamp, execEnqw, execBer, execQuit]

theorem applied_withChan (p : Packet) (s : State) (q : List Packet) :
    applied p (s.withChan q) = (applied p s).withChan q := by
  rcases applied_cases p s with ⟨h, -⟩ | ⟨b, h, -⟩ | ⟨h, -⟩ | ⟨h, -⟩ | ⟨h, -⟩ | ⟨h, -⟩ | ⟨h, -⟩ <;>
    simp only [applied, applyCommand, h] <;> rfl

theorem applied_withInput (p : Packet) (s : State) (l : Schedule) :
    applied p (s.withInput l) = (applied p s).withInput l := by
  rcases applied_cases p s with ⟨h, -⟩ | ⟨b, h, -⟩ | ⟨h, -⟩ | ⟨h, -⟩ | ⟨h, -⟩ | ⟨h, -⟩ | ⟨h, -⟩ <;>
    simp only [applied, applyCommand, h] <;> rfl

theorem applied_withCore (p : Packet) (s : State) (c : CoreRegs) :
    applied p (s.withCore c) = (applied p s).withCore c := by
  rcases applied_cases p s with ⟨h, -⟩ | ⟨b, h, -⟩ | ⟨h, -⟩ | ⟨h, -⟩ | ⟨h, -⟩ | ⟨h, -⟩ | ⟨h, -⟩ <;>
    simp only [applied, applyCommand, h] <;> rfl

/-- Only QUIT sets the quit bit, and no command clears it. -/
theorem applied_quit (p : Packet) (s : State) :
    (applied p s).quit = (s.quit || decodeCommand p == some .quit) := by
  rcases applied_cases p s with ⟨h, e⟩ | ⟨b, h, e⟩ | ⟨h, e⟩ | ⟨h, e⟩ | ⟨h, e⟩ | ⟨h, e⟩ | ⟨h, e⟩ <;>
    simp [h, e]

/-- The collaborator's reckoning of a command is what the command does to the override. -/
theorem overrideOf_applied (p : Packet) (s : State) :
    overrideOf (applied p s).src = overrideAfter (overrideOf s.src) p := by
  unfold overrideAfter
  rcases applied_cases p s with ⟨h, e⟩ | ⟨b, h, e⟩ | ⟨h, e⟩ | ⟨h, e⟩ | ⟨h, e⟩ | ⟨h, e⟩ | ⟨h, e⟩ <;>
    rw [h, e]
  · rfl
  · rfl
  · rfl
  · rcases enqueueWord_cases s.params.queueDepth p.text s.src with k | ⟨-, -, k⟩ <;>
      simp [k, overrideOf]
  · rfl
  · rfl

/-- The frame of a system tick after its drain, field by field (R135 steps 3 to 5). -/
theorem tickAfterDrain_fields (s : State) (hq : s.quit = false) :
    (tickAfterDrain s).core =
      coreTick (validOf (peek s.src)) (bitOf (peek s.src)) s.ampSel s.core ∧
    (tickAfterDrain s).src = (if isCap (next60 s.core.frame) then consume s.src else s.src) ∧
    (tickAfterDrain s).ampSel = s.ampSel ∧ (tickAfterDrain s).chan = s.chan ∧
    (tickAfterDrain s).quit = s.quit ∧ (tickAfterDrain s).ovrCopy = s.ovrCopy ∧
    (tickAfterDrain s).params = s.params ∧ (tickAfterDrain s).input = s.input := by
  have ht : srcTake (systemStimulus false true s) s.core = isCap (next60 s.core.frame) := by
    simp [srcTake, systemStimulus]
  unfold tickAfterDrain
  rw [if_neg (by simp [hq]), ht]
  cases isCap (next60 s.core.frame) <;> exact ⟨rfl, rfl, rfl, rfl, rfl, rfl, rfl, rfl⟩

end Sys2Proof.Machine
end

