-- ==== Sys2Proof/WellFormed.lean ====
section
/-! DEFINITION. Well-formedness: the input-format check of R118 and R151 on a command's text, the
canonical form of a format C command (R49, R55), and the sense of the display parameters (R6).
None of these is a reason to stop: an ill-formed command runs, as the no-op the spec makes it. -/

namespace Sys2Proof

/-- R151: a text that can be encoded as bits, that is not empty and holds no code above 255. -/
def wordEncodable (text : List Nat) : Bool :=
  !text.isEmpty && text.all (fun c => decide (c ≤ 255))

/-- An operation whose operands can be encoded (R118, R151). Every pin pattern of the cycle operations
is legal (R52). -/
def Instr.wellFormed : Instr → Bool
  | .rst _ _ _ _ => true
  | .hold _ _ _ => true
  | .tick _ _ _ => true
  | .setovr _ => true
  | .clrovr => true
  | .togamp => true
  | .enqw text => wordEncodable text
  | .ber => true
  | .quit => true

/-- A command in canonical format C: its header is one of R51's (not one R55 reserves) and only an
ENQW is followed by a text (R49). -/
def Packet.wellFormed (p : Packet) : Bool :=
  [0x0#4, 0x1#4, 0x2#4, 0x4#4, 0x6#4, 0x8#4, 0xA#4].contains p.header
    && (p.header == 0x6#4 || p.text.isEmpty)

/-- Display parameters that fit their own width (R6). -/
def Config.Params.wellFormed (prm : Config.Params) : Bool :=
  decide (prm.qLow < 2 ^ prm.opacityW) && decide (prm.qHigh < 2 ^ prm.opacityW)

end Sys2Proof
end

