-- ==== Sys2Proof/Laws/WellFormed.lean ====
section
/-! SUPPORT. How the well-formedness checks meet the operations. -/

namespace Sys2Proof

/-- The command processor takes exactly the texts of well-formed ENQWs (R118, R151). -/
theorem textAccepted_eq_wellFormed (text : List Nat) :
    Machine.textAccepted text = (Instr.enqw text).wellFormed := rfl

/-- Every command in the encoder's output is in canonical format C (R49). -/
theorem encode_command_wellFormed (i : Instr) (p : Packet) (h : encode i = .command p) :
    p.wellFormed = true := by
  cases i with
  | rst t v b a => simp [encode] at h
  | hold v b a => simp [encode] at h
  | tick v b a => simp [encode] at h
  | setovr b => simp only [encode, Encoded.command.injEq] at h; subst h; cases b <;> decide
  | clrovr => simp only [encode, Encoded.command.injEq] at h; subst h; decide
  | togamp => simp only [encode, Encoded.command.injEq] at h; subst h; decide
  | enqw text => simp only [encode, Encoded.command.injEq] at h; subst h; rfl
  | ber => simp only [encode, Encoded.command.injEq] at h; subst h; decide
  | quit => simp only [encode, Encoded.command.injEq] at h; subst h; decide

end Sys2Proof
end

