-- ==== Sys2Proof/Tests/Slice0.lean ====
section
/-! SUPPORT. Tests on small states, their expected values taken from spec/95_test_vectors.md and the
worked examples of the rules, and a witness for the hypotheses of every statement that has some. -/

namespace Sys2Proof.Tests

open Sys2Proof Sys2Proof.Machine

/-! Helpers. -/

/-- A core state in the notation of 95_test_vectors.md, the latch as its pair. -/
def regs (frame : Nat) (v b : Bit) (op : OpacityCode) (stb : Bit) : CoreRegs :=
  ⟨BitVec.ofNat 6 frame, v, b, op, stb⟩

/-- A reset state with this core. -/
def withRegs (c : CoreRegs) : State := State.reset.withCore c

/-- A reset state with this bit source `(ovr, ber_rem, queue)`. -/
def withSource (v b : Bit) (n : Nat) (q : List Bit) : State := State.reset.withSrc ⟨v, b, n, q⟩

/-- The schedule that begins with these acts. -/
def listing (es : List Event) : Schedule := ⟨es, 0⟩

/-- The core after an outcome. -/
def coreAfter : Host.Outcome State Fault Refusal → Option CoreRegs
  | .next s => some s.core
  | .fault _ => none
  | .refused _ => none

/-- The bit source after an outcome. -/
def srcAfter : Host.Outcome State Fault Refusal → Option BitSource
  | .next s => some s.src
  | .fault _ => none
  | .refused _ => none

/-- The amplitude, the quit bit and the channel's length after an outcome. -/
def restAfter : Host.Outcome State Fault Refusal → Option (Bit × Bit × Nat)
  | .next s => some (s.ampSel, s.quit, s.chan.length)
  | .fault _ => none
  | .refused _ => none

/-! Well-formedness: an ill-formed term for each check, which the check refuses. -/

theorem test_wf_refuses_empty_word : (Instr.enqw []).wellFormed = false := by decide
theorem test_wf_refuses_wide_code : (Instr.enqw [72, 300]).wellFormed = false := by decide
theorem test_wf_accepts_word : (Instr.enqw [72, 105]).wellFormed = true := by decide
theorem test_wf_refuses_reserved_header : (Packet.mk 0b0011#4 []).wellFormed = false := by decide
theorem test_wf_refuses_text_after_ber : (Packet.mk 0b1000#4 [65]).wellFormed = false := by decide
theorem test_wf_refuses_wide_level :
    ({ qHigh := 256 } : Config.Params).wellFormed = false := by decide

/-! Decoding: one word of every row of R51, written out bit by bit, and the boundaries between rows. -/

theorem test_decode_rst : decodeStimulus 0b11010#5 = .rst true false true false := by decide
theorem test_decode_hold : decodeStimulus 0b00101#5 = .hold true false true := by decide
theorem test_decode_tick : decodeStimulus 0b01110#5 = .tick true true false := by decide
theorem test_decode_setovr0 : decodeCommand ⟨0b0000#4, []⟩ = some (.setovr false) := by decide
theorem test_decode_setovr1 : decodeCommand ⟨0b0001#4, []⟩ = some (.setovr true) := by decide
theorem test_decode_clrovr : decodeCommand ⟨0b0010#4, []⟩ = some .clrovr := by decide
theorem test_decode_togamp : decodeCommand ⟨0b0100#4, []⟩ = some .togamp := by decide
theorem test_decode_enqw : decodeCommand ⟨0b0110#4, [72, 105]⟩ = some (.enqw [72, 105]) := by decide
theorem test_decode_ber : decodeCommand ⟨0b1000#4, []⟩ = some .ber := by decide
theorem test_decode_quit : decodeCommand ⟨0b1010#4, []⟩ = some .quit := by decide
theorem test_decode_reserved : decodeCommand ⟨0b0011#4, []⟩ = none := by decide
theorem test_decode_wide_table_word : decodeTableWord 8 32 = none := by decide

/-! The cycle operations (95_test_vectors.md sections 2.1 to 2.4, R130 to R132). -/

theorem test_rst_beats_tick :
    coreAfter (exec (decodeStimulus 0b11111#5) (withRegs (regs 37 true true 0b11#2 true))) =
      some (regs 0 false false 0b00#2 false) := by decide

theorem test_hold_keeps_code :
    coreAfter (exec (decodeStimulus 0b00000#5) (withRegs (regs 11 true false 0b10#2 true))) =
      some (regs 11 true false 0b10#2 false) := by decide

theorem test_tick_pulses :
    coreAfter (exec (decodeStimulus 0b01001#5) (withRegs (regs 12 true false 0b00#2 false))) =
      some (regs 13 true false 0b11#2 true) := by decide

theorem test_tick_captures_no_bit :
    coreAfter (exec (decodeStimulus 0b01011#5) (withRegs (regs 11 true true 0b10#2 true))) =
      some (regs 12 false false 0b00#2 true) := by decide

theorem test_tick_wraps : srcTake 0b01110#5 (regs 59 true true 0b00#2 true) = true ∧
    (coreTick true true false (regs 59 true true 0b00#2 true)).frame = 0#6 := by decide

/-- 43_modulator.md R101's example and the last row of 95_test_vectors.md section 2.3. -/
theorem test_low_pulse :
    (coreTick true true false (regs 13 true true 0b00#2 true)).opCode = 0b10#2 := by decide

/-! The bit source (95_test_vectors.md section 2.5). -/

theorem test_ber_first_bit : poll ⟨false, false, 200, [false]⟩ =
    (some true, ⟨false, false, 199, [false]⟩) := by decide
theorem test_ber_last_bit : poll ⟨false, false, 1, [false]⟩ =
    (some false, ⟨false, false, 0, [false]⟩) := by decide
theorem test_queue_front : poll ⟨false, false, 0, [false, true, true]⟩ =
    (some false, ⟨false, false, 0, [true, true]⟩) := by decide
theorem test_override_wins : poll ⟨true, false, 150, [true, true]⟩ =
    (some false, ⟨true, false, 150, [true, true]⟩) := by decide

/-! The commands (95_test_vectors.md section 2.6). -/

theorem test_setovr_replaces : srcAfter (exec (.setovr false) (withSource true true 0 [])) =
    some ⟨true, false, 0, []⟩ := by decide
theorem test_clrovr_keeps_rest : srcAfter (exec .clrovr (withSource true false 7 [true])) =
    some ⟨false, false, 7, [true]⟩ := by decide
theorem test_togamp : restAfter (exec .togamp State.reset) = some (true, false, 0) := by decide
theorem test_enqw_appends_msb_first :
    srcAfter (exec (.enqw [72, 105]) (withSource false false 0 [true])) =
      some ⟨false, false, 0, [true,
        false, true, false, false, true, false, false, false,
        false, true, true, false, true, false, false, true]⟩ := by decide
theorem test_enqw_rejected : srcAfter (exec (.enqw [72, 300]) (withSource false false 0 [true])) =
    some ⟨false, false, 0, [true]⟩ := by decide
theorem test_ber_restarts : srcAfter (exec .ber (withSource false false 137 [])) =
    some ⟨false, false, 200, []⟩ := by decide
theorem test_quit : restAfter (exec .quit State.reset) = some (false, true, 0) := by decide

/-! The step, and words placed where it runs them. -/

/-- `chan` = [QUIT, BER], a tick: QUIT is applied, BER stays (R120; 95_test_vectors.md P4 tick 75). -/
theorem test_step_drains_quit :
    restAfter (step ((State.reset.withChan [⟨0b1010#4, []⟩, ⟨0b1000#4, []⟩]).withInput
      (listing [.clock false true]))) = some (false, true, 1) := by decide

theorem test_step_captures_from_queue :
    srcAfter (step (((withSource false false 0 [true, false]).withCore
      (regs 11 false false 0b00#2 true)).withInput (listing [.clock false true]))) =
      some ⟨false, false, 0, [false]⟩ := by decide

theorem test_step_reset_empties_chan :
    restAfter (step ((State.reset.withChan [⟨0b1010#4, []⟩]).withInput (listing [.clock true true]))) =
      some (false, false, 0) := by decide

theorem test_placed_togamp_runs :
    restAfter (step (State.reset.withFetchWord 8 0x4)) = some (true, false, 0) := by decide

theorem test_placed_tick_runs :
    coreAfter (step (State.reset.withFetchWord 8 0xF)) =
      some (regs 1 false false 0b00#2 true) := by decide

theorem test_line_toggles : lineCommand (some false) [48] = some ⟨0b0010#4, []⟩ ∧
    lineCommand (some false) [49] = some ⟨0b0001#4, []⟩ := by decide

/-! ## Witnesses: concrete values that meet the hypotheses of each statement -/

/-- Every reset state with a legal schedule is legal; the witness of the statements about legal
states. -/
theorem legal_reset : Legal State.reset := by
  refine ⟨⟨by decide, by decide, by decide, by decide⟩, by decide, by decide, ?_, ?_, by decide⟩
  · intro d h; cases h
  · intro d h; cases h

theorem witness_DecodeEncodeRoundTrip :
    decodeCommand ⟨0x6#4, [65]⟩ = some (.enqw [65]) ∧ decodeCommand ⟨0xA#4, [7]⟩ = some .quit := by
  decide

theorem witness_ReservedHeadersAreNoOps : decodeCommand ⟨0xF#4, [65]⟩ = none := by decide

theorem witness_StrobeMarksTicks :
    exec (decodeStimulus 0b01000#5) State.reset =
      .next (State.reset.withCore (regs 1 false false 0b00#2 true)) := rfl

theorem witness_LatchHeldBetweenCaptures :
    exec (decodeStimulus 0b10000#5) State.reset = .next State.reset ∧
    Stimulus.rst 0b10000#5 = true ∧
    exec (decodeStimulus 0b01000#5) State.reset =
      .next (State.reset.withCore (regs 1 false false 0b00#2 true)) ∧
    Stimulus.rst 0b01000#5 = false ∧ srcTake 0b01000#5 State.reset.core = false :=
  ⟨rfl, rfl, rfl, rfl, rfl⟩

theorem witness_IgnoredFieldsHaveNoEffect :
    isCap (next60 (withRegs (regs 10 true true 0b00#2 true)).core.frame) = false ∧
    isCap (next60 (withRegs (regs 11 true true 0b00#2 true)).core.frame) = true := by decide

theorem witness_OutputRegistersNeverReadBack :
    (regs 5 true true 0b11#2 true).frame = (regs 5 true true 0b00#2 false).frame ∧
    (regs 5 true true 0b11#2 true).lbV = (regs 5 true true 0b00#2 false).lbV ∧
    (regs 5 true true 0b11#2 true).lbB = (regs 5 true true 0b00#2 false).lbB := by decide

theorem witness_HoldsDoNotChangeTheStream :
    Stimulus.rst 0b00111#5 = false ∧ Stimulus.tick 0b00111#5 = false := by decide

theorem witness_UnreachablePhasesRecover :
    60 ≤ (withRegs (regs 60 false false 0b00#2 true)).core.frame.toNat ∧
    60 ≤ (withRegs (regs 63 false false 0b00#2 true)).core.frame.toNat := by decide

theorem witness_SuccessorPhase :
    59 ≤ (59#6).toNat ∧ (58#6).toNat < 59 ∧ (59#6).toNat ≤ 59 ∧ (next60 59#6).toNat = 0 ∧
    (next60 58#6).toNat = 59 ∧ (next60 63#6).toNat = 0 := by decide

theorem witness_PhaseAfterTicks :
    (regs 59 false false 0b00#2 true).frame.toNat ≤ 59 ∧
    [0b01000#5, 0b00111#5, 0b01111#5].all noReset = true ∧
    tickCount [0b01000#5, 0b00111#5, 0b01111#5] = 2 := by decide

theorem witness_FrameInRangeWhenReachable : Reachable State.reset := ⟨{}, listing [], 0, rfl⟩

theorem witness_OneCapturePerWindow :
    (List.replicate 12 0b01000#5).all noReset = true ∧
    tickCount (List.replicate 12 0b01000#5) = 12 ∧
    (List.replicate 60 0b01000#5).all noReset = true ∧
    tickCount (List.replicate 60 0b01000#5) = 60 := by decide

theorem witness_BitZeroTone : (59#6).toNat ≤ 59 ∧ (57#6).toNat ≤ 59 ∧
    pulse true false 57#6 = true := by decide

theorem witness_BitOneTone : (0#6).toNat ≤ 59 ∧ (59#6).toNat ≤ 59 ∧
    pulse true true 59#6 = true := by decide

theorem witness_PulseFacts : (48#6).toNat ≤ 59 ∧ (48#6).toNat % 12 = 0 ∧
    (53#6).toNat ≤ 59 ∧ pulse true false 53#6 = true ∧ pulse true true 53#6 = true := by decide

theorem witness_WindowTableIsThePulse : (59#6).toNat ≤ 59 ∧ (59#6).toNat % 12 = 11 := by decide

theorem witness_OpacityCodesShown :
    exec (decodeStimulus 0b00000#5) (withRegs (regs 0 false false 0b01#2 false)) =
      .next (withRegs (regs 0 false false 0b01#2 false)) := rfl

theorem witness_TickShowsIntensity :
    exec (.tick false false true) (withRegs (regs 12 true false 0b00#2 true)) =
      .next (withRegs (regs 13 true false 0b11#2 true)) := rfl

theorem witness_WindowStream :
    srcTake 0b01111#5 (regs 47 false false 0b00#2 true) = true ∧
    (0b00000#5 :: List.replicate 11 0b01001#5).all noReset = true ∧
    tickCount (0b00000#5 :: List.replicate 11 0b01001#5) = 11 ∧
    Stimulus.rst 0b01000#5 = false ∧ Stimulus.tick 0b01000#5 = true := by decide

/-- One bit source for each variant, at the boundary of its range. -/
theorem witness_PeekAndConsumeByPrecedence :
    overrideOf ⟨true, false, 1, [true]⟩ = some false ∧
    overrideOf ⟨false, false, 1, [true]⟩ = none ∧
    overrideOf ⟨false, false, 200, []⟩ = none ∧
    overrideOf ⟨false, false, 0, [true]⟩ = none ∧
    overrideOf ⟨false, false, 0, []⟩ = none := by decide

theorem witness_BerSequence : overrideOf (withSource false false 7 [true]).src = none := by decide

theorem witness_WordIsPolledInOrder :
    overrideOf (withSource false false 0 [true]).src = none ∧
    (withSource false false 0 [true]).src.berRem = 0 ∧
    (withSource false false 0 [true]).params.queueDepth = none ∧
    ([0, 255] : List Nat) ≠ [] ∧ (∀ c ∈ ([0, 255] : List Nat), c ≤ 255) := by decide

theorem witness_IdleIsStable : overrideOf BitSource.reset = none ∧
    BitSource.reset.berRem = 0 ∧ BitSource.reset.queue = [] := by decide

/-- A queue of 8 bits: one character fits it exactly. -/
def shallow : State := State.resetWith { queueDepth := some 8, cmdDepth := some 1 }

theorem witness_EnqwAppendsTheWord : ([255] : List Nat) ≠ [] ∧
    (∀ c ∈ ([255] : List Nat), c ≤ 255) ∧
    (∀ d, shallow.params.queueDepth = some d →
      shallow.src.queue.length + 8 * ([255] : List Nat).length ≤ d) := by
  refine ⟨by decide, by decide, ?_⟩
  intro d h
  cases h
  decide

/-- The three grounds of rejection, each at its boundary: no character, code 256, a ninth bit. -/
theorem witness_EnqwRejectedWhole :
    (([] : List Nat) = []) ∧ (∃ c ∈ ([256] : List Nat), 255 < c) ∧
    (∃ d, shallow.params.queueDepth = some d ∧
      d < (shallow.withSrc ⟨false, false, 0, [true]⟩).src.queue.length +
        8 * ([65] : List Nat).length) :=
  ⟨rfl, ⟨256, by decide, by decide⟩, ⟨8, rfl, by decide⟩⟩

theorem witness_CommandsWriteOnlyTheirRegister :
    decodeCommand ⟨0b1000#4, []⟩ = some .ber ∧
    decodeCommand ⟨0b0110#4, [65]⟩ = some (.enqw [65]) := by decide

theorem witness_StepRunsTheDecodedOperation :
    nextEvent (State.reset.withInput (listing [.pins 0b01000#5])) = (.pins 0b01000#5, listing []) ∧
    nextEvent ((State.reset.withChan [⟨0b0100#4, []⟩]).withInput (listing [.clock false true])) =
      (.clock false true, listing []) ∧
    (State.reset.withChan [⟨0b0100#4, []⟩]).quit = false ∧
    (State.reset.withChan [⟨0b0100#4, []⟩]).chan = [⟨0b0100#4, []⟩] ∧
    decodeCommand ⟨0b0100#4, []⟩ = some .togamp ∧
    nextEvent (State.reset.withInput (listing [.clock false true])) = (.clock false true, listing []) ∧
    State.reset.quit = false ∧ State.reset.chan = [] ∧
    (State.reset.withChan [⟨0b1111#4, []⟩]).chan = [⟨0b1111#4, []⟩] ∧
    decodeCommand ⟨0b1111#4, []⟩ = none := by decide

theorem witness_PlacedWordRunsNext :
    decodeTableWord 8 0x1F = some (decodeStimulus 0b11111#5) ∧
    decodeTableWord 8 0xA = some .quit ∧ decodeCommand ⟨0xA#4, []⟩ = some .quit := by decide

theorem witness_SysResetState :
    nextEvent (State.reset.withInput (listing [.clock true true])) = (.clock true true, listing []) := by decide

/-- A cycle without a tick is a HOLD; after QUIT a tick is one too. -/
theorem witness_SysHoldState :
    nextEvent (State.reset.withInput (listing [.clock false false])) =
      (.clock false false, listing []) ∧
    nextEvent ((State.reset.withQuit true).withInput (listing [.clock false true])) =
      (.clock false true, listing []) ∧ (State.reset.withQuit true).quit = true := by decide

theorem witness_PostTouchesOnlyTheChannel :
    nextEvent (State.reset.withInput (listing [.act .ampKey])) = (.act .ampKey, listing []) ∧
    nextEvent (State.reset.withInput (listing [.act (.line [])])) = (.act (.line []), listing []) ∧
    nextEvent ((State.reset.withQuit true).withInput (listing [.act .ampKey])) = (.act .ampKey, listing []) := by
  decide

/-- A channel for one command that holds one. -/
def fullChannel : State :=
  (shallow.withChan [⟨0b1000#4, []⟩]).withInput (listing [.act .ampKey, .clock false true])

theorem witness_FullChannelMakesPostWait :
    fullChannel.input.listed = .act .ampKey :: [.clock false true] ∧
    fullChannel.params.cmdDepth = some 1 ∧ 1 ≤ fullChannel.chan.length ∧
    quitPosted fullChannel = false ∧
    (actionCommand fullChannel.ovrCopy .ampKey).isSome = true ∧
    [.clock false true] = ([] : List Action).map .act ++ .clock false true :: ([] : List Event) ∧
    actionsOf [.clock false true] = [] := by decide

theorem witness_LineForms : [66, 69, 82] ∉ [[48], [49], [98, 101, 114], [113, 117, 105, 116], []] := by
  decide

/-- The override is `Some(1)` and SETOVR 0 has been posted: the key 0 posts CLROVR, the key 1 does not. -/
def setovrPosted : State :=
  ((withSource true true 0 []).withChan [⟨0b0000#4, []⟩]).withOvrCopy (some false)

theorem witness_ToggleFollowsPostedCommands :
    Legal setovrPosted ∧
    actionCommand setovrPosted.ovrCopy (.ovrKey false) = some ⟨0b0010#4, []⟩ ∧
    actionCommand setovrPosted.ovrCopy (.ovrKey true) = some ⟨0b0001#4, []⟩ := by
  refine ⟨⟨⟨by decide, by decide, by decide, by decide⟩, by decide, by decide, ?_, ?_, by decide⟩,
    by decide, by decide⟩
  · intro d h; cases h
  · intro d h; cases h

theorem witness_DrainInArrivalOrderUntilQuit :
    (State.reset.withChan [⟨0b1000#4, []⟩]).quit = false ∧
    (∀ p ∈ [(⟨0b1000#4, []⟩ : Packet)], decodeCommand p ≠ some .quit) ∧
    decodeCommand ⟨0b1010#4, []⟩ = some .quit ∧
    (State.reset.withChan [⟨0b1000#4, []⟩]).chan = [⟨0b1000#4, []⟩] ∧
    (State.reset.withChan [⟨0b1000#4, []⟩, ⟨0b1010#4, []⟩, ⟨0b0100#4, []⟩]).chan =
      [⟨0b1000#4, []⟩] ++ ⟨0b1010#4, []⟩ :: [⟨0b0100#4, []⟩] := by decide

theorem witness_SysTickIsOneTransition :
    nextEvent ((State.reset.withChan [⟨0b1000#4, []⟩, ⟨0b1010#4, []⟩]).withInput
      (listing [.clock false true])) = (.clock false true, listing []) := by decide

/-- A word waiting in the channel, the next phase 12. -/
def wordWaiting : State :=
  (withRegs (regs 11 false false 0b00#2 true)).withChan [⟨0b0110#4, [65]⟩]

theorem witness_CaptureSeesDrainedWord :
    wordWaiting.quit = false ∧ wordWaiting.chan = [⟨0b0110#4, 65 :: []⟩] ∧
    wordWaiting.params.queueDepth = none ∧ overrideOf wordWaiting.src = none ∧
    wordWaiting.src.berRem = 0 ∧ wordWaiting.src.queue = [] ∧
    (∀ x ∈ 65 :: ([] : List Nat), x ≤ 255) ∧
    (next60 wordWaiting.core.frame).toNat % 12 = 0 := by decide

/-- A TOGAMP waiting in the channel, the next phase 13. -/
def togampWaiting : State :=
  (withRegs (regs 12 true false 0b00#2 true)).withChan [⟨0b0100#4, []⟩]

theorem witness_AmplitudeSampledEveryTick :
    togampWaiting.quit = false ∧ togampWaiting.chan = [⟨0b0100#4, []⟩] ∧
    (next60 togampWaiting.core.frame).toNat % 12 ≠ 0 := by decide

theorem witness_QueueNeverPartlyAppended :
    srcAfter (step (wordWaiting.withInput (listing [.clock false true]))) =
      some ⟨false, false, 0, [false, true, false, false, false, false, false, true]⟩ := by decide

/-- A BER test at its last poll, and a queue, each before a capturing system tick. -/
def captureBer : State :=
  ((withSource false false 1 []).withCore (regs 11 false false 0b00#2 false)).withInput
    (listing [.clock false true])
def captureQueue : State :=
  ((withSource false false 0 [true]).withCore (regs 59 false false 0b00#2 false)).withInput
    (listing [.clock false true])

theorem legal_captures : Legal captureBer ∧ Legal captureQueue := by
  constructor <;>
    refine ⟨⟨by decide, by decide, by decide, by decide⟩, by decide, by decide, ?_, ?_, by decide⟩ <;>
    (intro d h; cases h)

theorem witness_OnlyCapturesConsume :
    step captureBer = .next (((withSource false false 0 []).withCore
      (regs 12 true false 0b00#2 true)).withInput (listing [])) ∧
    step captureQueue = .next (((withSource false false 0 []).withCore
      (regs 0 true true 0b00#2 true)).withInput (listing [])) ∧
    (∀ k rest, nextEvent captureBer ≠ (.clock true k, rest)) ∧
    (∀ k rest, nextEvent captureQueue ≠ (.clock true k, rest)) := by
  refine ⟨rfl, rfl, ?_, ?_⟩ <;> intro k rest h <;> cases h

/-- A state whose next step applies the command with this header. -/
def about (h : Header) : State :=
  (State.reset.withChan [⟨h, []⟩]).withInput (listing [.clock false true])

theorem witness_CompanionBitsChangeByCommandOnly :
    srcAfter (step (about 0b0001#4)) = some ⟨true, true, 0, []⟩ ∧
    restAfter (step (about 0b0100#4)) = some (true, false, 0) ∧
    restAfter (step (about 0b1010#4)) = some (false, true, 0) ∧
    (∀ h k rest, nextEvent (about h) ≠ (.clock true k, rest)) := by
  refine ⟨by decide, by decide, by decide, ?_⟩
  intro h k rest e
  cases e

theorem witness_EveryStepKeepsTheInvariant :
    Legal captureQueue ∧ coreAfter (step captureQueue) = some (regs 0 true true 0b00#2 true) :=
  ⟨legal_captures.2, by decide⟩

/-- After QUIT, a tick and a key to come. -/
def afterQuit : State :=
  (State.reset.withQuit true).withInput (listing [.clock false true, .act .ampKey])

theorem witness_QuitIsTerminal :
    afterQuit.quit = true ∧
    ∀ j < 2, ∀ u : State, Host.Core.run Sys2Proof.core j afterQuit = .next u →
      resetsOrBypasses (nextEvent u).1 = false := by
  refine ⟨rfl, ?_⟩
  intro j hj u h
  interval_cases j <;> (cases h; rfl)

end Sys2Proof.Tests
end

section
/-! SUPPORT. The state's invariant and the companion's bits (10_state.md): what the core's step and each
update of the bit source keep, then the settled statements O59, O57, O9, O45 and O58. -/

namespace Sys2Proof.Machine

/-! The core's step by the kind of the stimulus word (R130 to R132). -/

theorem coreStep_of_rst (prm : Config.Params) (c : CoreRegs) (w : Stimulus)
    (h : Stimulus.rst w = true) : (coreStep prm c w).1 = CoreRegs.reset prm := by
  simp [coreStep, h]

theorem coreStep_of_tick (prm : Config.Params) (c : CoreRegs) (w : Stimulus)
    (h : Stimulus.rst w = false) (ht : Stimulus.tick w = true) :
    (coreStep prm c w).1 =
      coreTick (Stimulus.srcValid w) (Stimulus.srcBit w) (Stimulus.ampSel w) c := by
  simp [coreStep, h, ht]

theorem coreStep_of_hold (prm : Config.Params) (c : CoreRegs) (w : Stimulus)
    (h : Stimulus.rst w = false) (ht : Stimulus.tick w = false) :
    (coreStep prm c w).1 = coreHold c := by
  simp [coreStep, h, ht]

/-- The strobe after a cycle says that the cycle was a TICK (R16). -/
theorem coreStep_opStb (prm : Config.Params) (c : CoreRegs) (w : Stimulus) :
    (coreStep prm c w).1.opStb = (!Stimulus.rst w && Stimulus.tick w) := by
  cases hr : Stimulus.rst w with
  | true => simp [coreStep_of_rst prm c w hr]
  | false =>
    cases ht : Stimulus.tick w with
    | true => simp [coreStep_of_tick prm c w hr ht]
    | false => simp [coreStep_of_hold prm c w hr ht]

/-! The core's part of the invariant. -/

theorem coreLegal_reset (prm : Config.Params) : CoreLegal (CoreRegs.reset prm) where
  frame_le := by
    have h := prm.frameReset.isLt
    rw [CoreRegs.reset_frame_toNat]
    omega
  latch_canonical := fun _ => rfl
  overlay_iff_pulse := by simp
  code_not_reserved := by simp

/-- HOLD writes the strobe alone, which the invariant does not read. -/
theorem coreLegal_coreHold {c : CoreRegs} (h : CoreLegal c) : CoreLegal (coreHold c) :=
  ⟨h.frame_le, h.latch_canonical, h.overlay_iff_pulse, h.code_not_reserved⟩

/-- TICK writes the code from the latch and the phase it writes in the same cycle, so only the latch
that it holds needs the old state to be legal. -/
theorem coreLegal_coreTick (v b a : Bit) {c : CoreRegs} (h : CoreLegal c) :
    CoreLegal (coreTick v b a c) where
  frame_le := next60_le c.frame
  latch_canonical := by
    intro hv
    rw [coreTick_lbV] at hv
    rw [coreTick_lbB]
    split_ifs at hv ⊢ with hcap
    · simp [hv]
    · exact h.latch_canonical hv
  overlay_iff_pulse := by rw [coreTick_opCode, opacityCode_bit1, coreTick_frame]
  code_not_reserved := by rw [coreTick_opCode]; exact opacityCode_not_reserved _ _

theorem coreLegal_coreStep (prm : Config.Params) (w : Stimulus) {c : CoreRegs} (h : CoreLegal c) :
    CoreLegal (coreStep prm c w).1 := by
  cases hr : Stimulus.rst w with
  | true => rw [coreStep_of_rst prm c w hr]; exact coreLegal_reset prm
  | false =>
    cases ht : Stimulus.tick w with
    | true => rw [coreStep_of_tick prm c w hr ht]; exact coreLegal_coreTick _ _ _ h
    | false => rw [coreStep_of_hold prm c w hr ht]; exact coreLegal_coreHold h

/-! The bit source's part of the invariant. -/

/-- A legal bit source for a queue of capacity `depth`: the clauses of `Legal` that read `src`
(`Legal.srcLegal`, `Legal.withSrc`). -/
structure SrcLegal (depth : Option Nat) (e : BitSource) : Prop where
  override_canonical : e.ovrV = false → e.ovrB = false
  ber_le : e.berRem ≤ 200
  queue_fits : ∀ d, depth = some d → e.queue.length ≤ d

section
variable {depth : Option Nat} {e : BitSource}

theorem srcLegal_reset : SrcLegal depth BitSource.reset :=
  ⟨fun _ => rfl, Nat.zero_le _, fun _ _ => Nat.zero_le _⟩

theorem srcLegal_setOverride (b : Bit) (h : SrcLegal depth e) : SrcLegal depth (setOverride b e) :=
  ⟨fun hv => absurd hv Bool.true_eq_false_eq_False, h.ber_le, h.queue_fits⟩

theorem srcLegal_clearOverride (h : SrcLegal depth e) : SrcLegal depth (clearOverride e) :=
  ⟨fun _ => rfl, h.ber_le, h.queue_fits⟩

theorem srcLegal_startBer (h : SrcLegal depth e) : SrcLegal depth (startBer e) :=
  ⟨h.override_canonical, Nat.le_refl _, h.queue_fits⟩

/-- An accepted word was found to fit before it joined the queue (R44). -/
theorem srcLegal_enqueueWord (text : List Nat) (h : SrcLegal depth e) :
    SrcLegal depth (enqueueWord depth text e) := by
  obtain hsame | ⟨-, hroom, happ⟩ := enqueueWord_cases depth text e
  · rwa [hsame]
  · rw [happ]
    refine ⟨h.override_canonical, h.ber_le, fun d hd => ?_⟩
    rw [List.length_append, wordToBits_length]
    exact (queueHasRoom_iff depth e _).mp hroom d hd

theorem consume_berRem_le (e : BitSource) : (consume e).berRem ≤ e.berRem := by
  unfold consume; split_ifs <;> simp

theorem consume_queue_length_le (e : BitSource) : (consume e).queue.length ≤ e.queue.length := by
  obtain h | h := consume_queue e <;> simp [h]

theorem srcLegal_consume (h : SrcLegal depth e) : SrcLegal depth (consume e) where
  override_canonical := by simpa using h.override_canonical
  ber_le := (consume_berRem_le e).trans h.ber_le
  queue_fits d hd := (consume_queue_length_le e).trans (h.queue_fits d hd)

end

/-! The invariant under the updates of the state. -/

section
variable {s : State}

theorem Legal.srcLegal (h : Legal s) : SrcLegal s.params.queueDepth s.src :=
  ⟨h.override_canonical, h.ber_le, h.queue_fits⟩

theorem Legal.withInput (h : Legal s) (l : Schedule) : Legal (s.withInput l) :=
  ⟨h.core, h.override_canonical, h.ber_le, h.queue_fits, h.chan_fits, h.copy_agrees⟩

theorem Legal.withCore (h : Legal s) {c : CoreRegs} (hc : CoreLegal c) : Legal (s.withCore c) :=
  ⟨hc, h.override_canonical, h.ber_le, h.queue_fits, h.chan_fits, h.copy_agrees⟩

/-- The bit source may change where the override, which the collaborator's copy follows, stays. -/
theorem Legal.withSrc (h : Legal s) {e : BitSource} (he : SrcLegal s.params.queueDepth e)
    (ho : overrideOf e = overrideOf s.src) : Legal (s.withSrc e) where
  core := h.core
  override_canonical := he.override_canonical
  ber_le := he.ber_le
  queue_fits := he.queue_fits
  chan_fits := h.chan_fits
  copy_agrees := by
    simp only [State.withSrc_ovrCopy, State.withSrc_chan, State.withSrc_src, ho]
    exact h.copy_agrees

/-- A posted command enters the channel and the collaborator's reckoning alike (R59, D18). -/
theorem Legal.post (h : Legal s) (p : Packet) (hroom : chanFull s = false) :
    Legal (post p s) where
  core := h.core
  override_canonical := h.override_canonical
  ber_le := h.ber_le
  queue_fits := h.queue_fits
  chan_fits d hd := by
    rw [post_params] at hd
    have hlt : s.chan.length < d := by simpa [chanFull, hd] using hroom
    simpa using hlt
  copy_agrees := by
    simp only [post_ovrCopy, post_chan, post_src, List.foldl_append, List.foldl_cons,
      List.foldl_nil, ← h.copy_agrees]

/-- The collaborator acts only where it need not wait, so a command it posts finds room (R44). -/
theorem Legal.collaborate (h : Legal s) (x : Action) (hw : mustWait x s = false) :
    Legal (collaborate x s) := by
  obtain hsame | ⟨p, hp, hq, hpost⟩ := collaborate_cases x s
  · rwa [hsame]
  · rw [hpost]
    exact h.post p (by simpa [mustWait, hp, hq] using hw)

/-- A command keeps the bit source legal: each of the six writes at most one part of it. -/
theorem srcLegal_applied (p : Packet) (h : SrcLegal s.params.queueDepth s.src) :
    SrcLegal s.params.queueDepth (applied p s).src := by
  obtain ⟨-, e⟩ | ⟨b, -, e⟩ | ⟨-, e⟩ | ⟨-, e⟩ | ⟨-, e⟩ | ⟨-, e⟩ | ⟨-, e⟩ := applied_cases p s <;>
    rw [e]
  · exact h
  · exact srcLegal_setOverride b h
  · exact srcLegal_clearOverride h
  · exact h
  · exact srcLegal_enqueueWord p.text h
  · exact srcLegal_startBer h
  · exact h

/-- The command that leaves the head of the channel moves from the commands the copy still awaits into
the override itself. -/
theorem Legal.applied_head (h : Legal s) {p : Packet} {ps : List Packet} (hc : s.chan = p :: ps) :
    Legal (applied p (s.withChan ps)) := by
  have hsrc : SrcLegal s.params.queueDepth (applied p (s.withChan ps)).src :=
    srcLegal_applied p (s := s.withChan ps) h.srcLegal
  refine ⟨?_, hsrc.override_canonical, hsrc.ber_le, ?_, ?_, ?_⟩
  · rw [applied_core]; exact h.core
  · rw [applied_params]; exact hsrc.queue_fits
  · intro d hd
    rw [applied_params] at hd
    have hle := h.chan_fits d hd
    rw [hc, List.length_cons] at hle
    rw [applied_chan, State.withChan_chan]
    omega
  · rw [overrideOf_applied, applied_ovrCopy, applied_chan]
    simpa [hc] using h.copy_agrees

/-- The frame of a system tick moves the core by TICK and the bit source by at most one consume. -/
theorem Legal.tickAfterDrain (h : Legal s) (hq : s.quit = false) : Legal (tickAfterDrain s) := by
  obtain ⟨hcore, hsrc, -, hchan, -, hcopy, hprm, -⟩ := tickAfterDrain_fields s hq
  have hkept : SrcLegal s.params.queueDepth (Machine.tickAfterDrain s).src := by
    rw [hsrc]
    split_ifs
    · exact srcLegal_consume h.srcLegal
    · exact h.srcLegal
  have hovr : overrideOf (Machine.tickAfterDrain s).src = overrideOf s.src := by
    rw [hsrc]
    split_ifs <;> simp [overrideOf]
  refine ⟨?_, hkept.override_canonical, hkept.ber_le, ?_, ?_, ?_⟩
  · rw [hcore]; exact coreLegal_coreTick _ _ _ h.core
  · rw [hprm]; exact hkept.queue_fits
  · rw [hprm, hchan]; exact h.chan_fits
  · rw [hcopy, hchan, hovr]; exact h.copy_agrees

end

theorem legal_resetWith (prm : Config.Params) : Legal (State.resetWith prm) where
  core := coreLegal_reset prm
  override_canonical := srcLegal_reset (depth := none).override_canonical
  ber_le := srcLegal_reset (depth := none).ber_le
  queue_fits := srcLegal_reset.queue_fits
  chan_fits := fun _ _ => Nat.zero_le _
  copy_agrees := rfl

/-- Settles O58: the reset values, and a schedule that the invariant does not read. -/
theorem resetStatesAreLegal : Obligations.ResetStatesAreLegal :=
  fun prm l => (legal_resetWith prm).withInput l

/-- Settles O59, by the six things one step can be. -/
theorem everyStepKeepsTheInvariant : Obligations.EveryStepKeepsTheInvariant := by
  intro s t h hstep
  obtain ⟨a, rest, hev, rfl⟩ | ⟨w, rest, -, rfl⟩ | ⟨k, rest, -, rfl⟩ |
    ⟨rest, p, ps, -, -, hc, rfl⟩ | ⟨rest, -, hq, -, rfl⟩ | ⟨k, rest, -, -, rfl⟩ :=
      step_cases s t hstep
  · -- an act of the collaborator
    exact (h.withInput rest).collaborate a (nextEvent_act s a rest hev).1
  · -- a cycle of the core alone
    exact (h.withInput rest).withCore (coreLegal_coreStep s.params w h.core)
  · -- SYS_RESET
    exact resetStatesAreLegal s.params rest
  · -- a drained command
    rw [applied_withInput]
    exact ((h.withCore (coreLegal_coreHold h.core)).applied_head hc).withInput _
  · -- the frame of a system tick
    exact (h.tickAfterDrain hq).withInput rest
  · -- SYS_HOLD
    exact (h.withInput rest).withCore (coreLegal_coreHold h.core)

/-! The companion's bits: override, amplitude and `quit`. -/

/-- Two states agree in the override pair, the amplitude and `quit`. -/
structure SameBits (s t : State) : Prop where
  override : (t.src.ovrV, t.src.ovrB) = (s.src.ovrV, s.src.ovrB)
  ampSel : t.ampSel = s.ampSel
  quit : t.quit = s.quit

/-- A word joins the queue and leaves the override pair. -/
theorem enqueueWord_override (depth : Option Nat) (text : List Nat) (e : BitSource) :
    ((enqueueWord depth text e).ovrV, (enqueueWord depth text e).ovrB) = (e.ovrV, e.ovrB) := by
  obtain h | ⟨-, -, h⟩ := enqueueWord_cases depth text e <;> rw [h]

/-- Only SETOVR and CLROVR write the override pair (R122). -/
theorem applied_override_ne {p : Packet} {s : State}
    (h : ((applied p s).src.ovrV, (applied p s).src.ovrB) ≠ (s.src.ovrV, s.src.ovrB)) :
    (∃ b, decodeCommand p = some (.setovr b)) ∨ decodeCommand p = some .clrovr := by
  obtain ⟨-, e⟩ | ⟨b, hd, -⟩ | ⟨hd, -⟩ | ⟨-, e⟩ | ⟨-, e⟩ | ⟨-, e⟩ | ⟨-, e⟩ := applied_cases p s
  · exact absurd (by rw [e]) h -- a reserved header
  · exact .inl ⟨b, hd⟩ -- SETOVR
  · exact .inr hd -- CLROVR
  · exact absurd (by rw [e]; rfl) h -- TOGAMP
  · exact absurd (by rw [e]; exact enqueueWord_override _ _ _) h -- ENQW
  · exact absurd (by rw [e]; rfl) h -- BER
  · exact absurd (by rw [e]; rfl) h -- QUIT

/-- Only TOGAMP writes the amplitude (R122). -/
theorem applied_ampSel_ne {p : Packet} {s : State} (h : (applied p s).ampSel ≠ s.ampSel) :
    decodeCommand p = some .togamp := by
  obtain ⟨-, e⟩ | ⟨b, -, e⟩ | ⟨-, e⟩ | ⟨hd, -⟩ | ⟨-, e⟩ | ⟨-, e⟩ | ⟨-, e⟩ := applied_cases p s
  case inr.inr.inr.inl => exact hd
  all_goals exact absurd (congrArg State.ampSel e) h

/-- Outside a reset a step leaves the three bits, or a system tick applies the command it takes from
the head of the channel to a state with the old ones. -/
theorem step_keeps_bits_or_drains {s t : State} (h : step s = .next t)
    (hr : ∀ k rest, nextEvent s ≠ (.clock true k, rest)) :
    SameBits s t ∨
    ∃ rest p u, nextEvent s = (.clock false true, rest) ∧ s.quit = false ∧
      s.chan = p :: t.chan ∧ SameBits s u ∧ t = applied p u := by
  obtain ⟨a, rest, -, rfl⟩ | ⟨w, rest, -, rfl⟩ | ⟨k, rest, hev, -⟩ |
    ⟨rest, p, ps, hev, hq, hc, rfl⟩ | ⟨rest, -, hq, -, rfl⟩ | ⟨k, rest, -, -, rfl⟩ :=
      step_cases s t h
  · -- an act of the collaborator
    obtain ⟨-, hsrc, hamp, hquit, -, -⟩ := collaborate_frame a (s.withInput rest)
    exact .inl ⟨by rw [hsrc]; rfl, hamp, hquit⟩
  · exact .inl ⟨rfl, rfl, rfl⟩ -- a cycle of the core alone
  · exact absurd hev (hr k rest) -- SYS_RESET
  · -- a drained command
    refine .inr ⟨rest, p, ((s.withCore (coreHold s.core)).withChan ps).withInput
      (putFirst (.clock false true) rest), hev, hq, ?_, ⟨rfl, rfl, rfl⟩, rfl⟩
    simp [hc]
  · -- the frame of a system tick
    obtain ⟨-, hsrc, hamp, -, hquit, -, -, -⟩ := tickAfterDrain_fields s hq
    refine .inl ⟨?_, hamp, hquit⟩
    rw [State.withInput_src, hsrc]
    split_ifs <;> simp
  · exact .inl ⟨rfl, rfl, rfl⟩ -- SYS_HOLD

/-- Settles O57: a step that is no reset keeps the three bits, or they change as the drained command
changes them. -/
theorem companionBitsChangeByCommandOnly : Obligations.CompanionBitsChangeByCommandOnly := by
  intro s t hstep hr
  obtain hsame | ⟨rest, p, u, hev, hq, hc, hu, rfl⟩ := step_keeps_bits_or_drains hstep hr
  · exact ⟨fun h => absurd hsame.override h, fun h => absurd hsame.ampSel h,
      fun h => absurd hsame.quit h⟩
  · refine ⟨fun h => ?_, fun h => ?_, fun h => ?_⟩
    · rw [← hu.override] at h
      exact ⟨rest, p, hev, hq, hc, applied_override_ne h⟩
    · rw [← hu.ampSel] at h
      exact ⟨rest, p, hev, hq, hc, applied_ampSel_ne h⟩
    · have hset : (applied p u).quit = true := by simpa [hq] using h
      have hd : decodeCommand p = some .quit := by simpa [applied_quit, hu.quit, hq] using hset
      exact ⟨hset, rest, p, hev, hq, hc, hd⟩

/-- Settles O9: a cycle operation is the core's step, and that writes the strobe. -/
theorem strobeMarksTicks : Obligations.StrobeMarksTicks := by
  intro w s t h
  rw [exec_decodeStimulus] at h
  obtain rfl := Host.Outcome.next.inj h
  simp [coreStep_opStb]

/-- Settles O45: the system cycle with `rst` = 1 makes the reset state of the same parameters, which is
R29's table written out. -/
theorem sysResetState : Obligations.SysResetState := by
  intro s tick rest hev
  rw [step_of_clock s true tick rest hev, clockCycle_rst]
  rfl

end Sys2Proof.Machine
end

section
/-! SUPPORT. The constant tables and the two FIFOs (20_memory.md): the pulse table row by row, what a
waiting collaborator leaves in the schedule and the channel, and what can reach the queue, then the
settled statements O48, O55, O24, O25 and O26. -/

namespace Sys2Proof.Machine

/-! The step is total, so a step that must happen has a next state. -/

theorem clockCycle_answers (r k : Bit) (rest : Schedule) (s : State) :
    ∃ t, clockCycle r k rest s = .next t := by
  cases r with
  | true => exact ⟨_, clockCycle_rst k rest s⟩
  | false =>
    by_cases hold : k = false ∨ s.quit = true
    · exact ⟨_, clockCycle_hold k rest s hold⟩
    · obtain ⟨rfl, hq⟩ : k = true ∧ s.quit = false := by simpa using hold
      cases hc : s.chan with
      | nil => exact ⟨_, clockCycle_tick rest s hq hc⟩
      | cons p ps => exact ⟨_, clockCycle_drain rest s p ps hq hc⟩

theorem step_answers (s : State) : ∃ t, step s = .next t := by
  obtain ⟨e, rest, hev⟩ : ∃ e rest, nextEvent s = (e, rest) := ⟨_, _, rfl⟩
  cases e with
  | act a => exact ⟨_, step_of_act s a rest hev⟩
  | pins w => exact ⟨_, (step_of_pins s w rest hev).trans (exec_decodeStimulus w _)⟩
  | clock r k =>
    rw [step_of_clock s r k rest hev]
    exact clockCycle_answers r k rest s

/-! The collaborator's acts in a schedule. -/

@[simp] theorem actionsOf_cons_act (a : Action) (es : List Event) :
    actionsOf (.act a :: es) = a :: actionsOf es := rfl
@[simp] theorem actionsOf_cons_clock (r k : Bit) (es : List Event) :
    actionsOf (.clock r k :: es) = actionsOf es := rfl
@[simp] theorem actionsOf_cons_pins (w : Stimulus) (es : List Event) :
    actionsOf (.pins w :: es) = actionsOf es := rfl

/-- Taking the first clock cycle out of a schedule keeps the collaborator's acts, in order. -/
theorem actionsOf_firstCycle (l : Schedule) :
    actionsOf (firstCycle l).2.listed = actionsOf l.listed := by
  have h : ∀ (es : List Event) (n : Nat),
      actionsOf (firstCycleFrom es n).2.listed = actionsOf es := by
    intro es n
    induction es with
    | nil => rfl
    | cons e es ih =>
      cases e with
      | act a => simp only [firstCycleFrom, putFirst_listed, actionsOf_cons_act, ih]
      | clock r k => rfl
      | pins w => rfl
  exact h l.listed l.free

/-! A step that serves a clock cycle. -/

theorem servesCycle_iff (s : State) :
    servesCycle s = true ↔ ∀ a, (nextEvent s).1 ≠ .act a := by
  obtain ⟨e, rest, hev⟩ : ∃ e rest, nextEvent s = (e, rest) := ⟨_, _, rfl⟩
  unfold servesCycle
  rw [hev]
  cases e <;> simp

/-- A clock cycle takes no act of the collaborator: a drain only puts its own tick back. -/
theorem actionsOf_step_of_servesCycle {s t : State} (h : step s = .next t)
    (hs : servesCycle s = true) :
    actionsOf t.input.listed = actionsOf (nextEvent s).2.listed := by
  obtain ⟨a, rest, hev, -⟩ | ⟨w, rest, hev, rfl⟩ | ⟨k, rest, hev, rfl⟩ |
    ⟨rest, p, ps, hev, -, -, rfl⟩ | ⟨rest, hev, -, -, rfl⟩ | ⟨k, rest, hev, -, rfl⟩ :=
      step_cases s t h
  · exact absurd (by rw [hev]) ((servesCycle_iff s).mp hs a) -- an act of the collaborator
  all_goals simp [hev]

/-- In a clock cycle the channel stays, gives its head to the drain of a system tick, or is emptied by
a reset. -/
theorem chan_step_of_servesCycle {s t : State} (h : step s = .next t) (hs : servesCycle s = true) :
    t.chan = s.chan ∨
    (∃ rest p, nextEvent s = (.clock false true, rest) ∧ s.quit = false ∧ s.chan = p :: t.chan) ∨
    (∃ k rest, nextEvent s = (.clock true k, rest) ∧ t.chan = []) := by
  obtain ⟨a, rest, hev, -⟩ | ⟨w, rest, -, rfl⟩ | ⟨k, rest, hev, rfl⟩ |
    ⟨rest, p, ps, hev, hq, hc, rfl⟩ | ⟨rest, -, hq, -, rfl⟩ | ⟨k, rest, -, -, rfl⟩ :=
      step_cases s t h
  · exact absurd (by rw [hev]) ((servesCycle_iff s).mp hs a) -- an act of the collaborator
  · exact .inl rfl -- a cycle of the core alone
  · exact .inr (.inr ⟨k, rest, hev, rfl⟩) -- SYS_RESET
  · exact .inr (.inl ⟨rest, p, hev, hq, by simp [hc]⟩) -- a drained command
  · -- the frame of a system tick
    obtain ⟨-, -, -, hchan, -, -, -, -⟩ := tickAfterDrain_fields s hq
    exact .inl hchan
  · exact .inl rfl -- SYS_HOLD

/-- A collaborator with a command to post waits at a full channel, unless QUIT was posted (R44). -/
theorem mustWait_of_full {s : State} {a : Action} {d : Nat} (hd : s.params.cmdDepth = some d)
    (hfull : d ≤ s.chan.length) (hq : quitPosted s = false)
    (ha : (actionCommand s.ovrCopy a).isSome = true) : mustWait a s = true := by
  simp [mustWait, chanFull, hd, hfull, hq, ha]

/-- Settles O48: the waiting collaborator lets the schedule's first clock cycle go first, and that
leaves its acts and changes the channel only as a clock cycle does. -/
theorem fullChannelMakesPostWait : Obligations.FullChannelMakesPostWait := by
  intro s a es d hl hd hfull hq ha
  have hfirst : nextEvent s = firstCycle s.input :=
    nextEvent_of_mustWait s a es hl (mustWait_of_full hd hfull hq ha)
  have hs : servesCycle s = true :=
    (servesCycle_iff s).mpr fun x => by rw [hfirst]; exact firstCycle_not_act s.input x
  refine ⟨hfirst, hs, ?_, ?_⟩
  · intro as c cs hes hc
    have hnot : ∀ x, c ≠ .act x := by rintro x rfl; simp at hc
    rw [hfirst, firstCycle, hl, hes]
    exact firstCycleFrom_listed (a :: as) c cs s.input.free hnot
  · obtain ⟨t, ht⟩ := step_answers s
    refine ⟨t, ht, ?_, chan_step_of_servesCycle ht hs⟩
    rw [actionsOf_step_of_servesCycle ht hs, hfirst, actionsOf_firstCycle]

/-! What can reach the queue. -/

theorem wordToBits_eq (text : List Nat) :
    wordToBits text = text.flatMap (fun c => (List.range 8).map (fun j => c.testBit (7 - j))) := rfl

/-- `consume` drops the front bit where neither override nor test answers, and else no bit (R73). -/
theorem consume_queue_eq_or (e : BitSource) :
    (consume e).queue = e.queue ∨
    (overrideOf e = none ∧ e.berRem = 0 ∧ (consume e).queue = e.queue.tail) := by
  cases hv : e.ovrV with
  | true => exact .inl (by rw [consume_of_override e hv])
  | false =>
    obtain hn | hn := Nat.eq_zero_or_pos e.berRem
    · exact .inr ⟨(overrideOf_eq_none e).mpr hv, hn, by rw [consume_of_queue e hv hn]⟩
    · exact .inl (by rw [consume_of_ber e hv hn])

/-- A command leaves the queue, or it is an ENQW and its whole word joins the tail (R117, R118). -/
theorem applied_queue_eq_or (p : Packet) (s : State) :
    (applied p s).src.queue = s.src.queue ∨
    (decodeCommand p = some (.enqw p.text) ∧ textAccepted p.text = true ∧
      (applied p s).src.queue = s.src.queue ++ wordToBits p.text) := by
  obtain ⟨-, e⟩ | ⟨b, -, e⟩ | ⟨-, e⟩ | ⟨-, e⟩ | ⟨hd, e⟩ | ⟨-, e⟩ | ⟨-, e⟩ := applied_cases p s
  case inr.inr.inr.inr.inl => -- ENQW
    obtain hsame | ⟨hacc, -, happ⟩ := enqueueWord_cases s.params.queueDepth p.text s.src
    · exact .inl (by rw [e, State.withSrc_src, hsame])
    · exact .inr ⟨hd, hacc, by rw [e, State.withSrc_src, happ]⟩
  all_goals exact .inl (congrArg (fun u => u.src.queue) e)

/-- The frame of a system tick leaves the queue, or it captures and takes the front bit. -/
theorem tickAfterDrain_queue_eq_or (s : State) (hq : s.quit = false) :
    (tickAfterDrain s).src.queue = s.src.queue ∨
    ((next60 s.core.frame).toNat % 12 = 0 ∧ overrideOf s.src = none ∧ s.src.berRem = 0 ∧
      (tickAfterDrain s).src.queue = s.src.queue.tail) := by
  obtain ⟨-, hsrc, -⟩ := tickAfterDrain_fields s hq
  rw [hsrc]
  split_ifs with hcap
  · rw [isCap_eq_true] at hcap
    exact (consume_queue_eq_or s.src).imp_right fun h => ⟨hcap, h⟩
  · exact .inl rfl

/-- Settles O55, by the six things one step can be. -/
theorem queueNeverPartlyAppended : Obligations.QueueNeverPartlyAppended := by
  intro s t h
  obtain ⟨a, rest, -, rfl⟩ | ⟨w, rest, -, rfl⟩ | ⟨k, rest, hev, rfl⟩ |
    ⟨rest, p, ps, hev, hq, hc, rfl⟩ | ⟨rest, hev, hq, hc, rfl⟩ | ⟨k, rest, -, -, rfl⟩ :=
      step_cases s t h
  · -- an act of the collaborator
    obtain ⟨-, hsrc, -⟩ := collaborate_frame a (s.withInput rest)
    exact .inl (by rw [hsrc]; rfl)
  · exact .inl rfl -- a cycle of the core alone
  · exact .inr (.inl ⟨k, rest, hev, rfl⟩) -- SYS_RESET
  · -- a drained command
    obtain hsame | ⟨hd, hacc, happ⟩ := applied_queue_eq_or p
      (((s.withCore (coreHold s.core)).withChan ps).withInput (putFirst (.clock false true) rest))
    · exact .inl hsame
    · obtain ⟨hne, hcodes⟩ := (textAccepted_iff p.text).mp hacc
      refine .inr (.inr (.inr ⟨rest, p, ps, p.text, hev, hq, hc, hd, ?_, hne, hcodes, ?_⟩))
      · simp
      · rw [happ, wordToBits_eq]; rfl
  · -- the frame of a system tick
    obtain hsame | ⟨hcap, hovr, hber, htail⟩ := tickAfterDrain_queue_eq_or s hq
    · exact .inl hsame
    · exact .inr (.inr (.inl ⟨rest, hev, hq, hc, hcap, hovr, hber, htail⟩))
  · exact .inl rfl -- SYS_HOLD

/-! The constant tables. -/

/-- The index `{b, p}` selects bit `p` of row `b` (R30). -/
theorem pulseLut_index (b : Bit) (p : Phase) :
    pulseLut (BitVec.ofBool b ++ p) = (pulseRow b).getLsbD p.toNat := by
  have hrow : (BitVec.ofBool b ++ p).getLsbD 6 = b := by
    rw [BitVec.getLsbD_append]
    simp
  have hcol : (BitVec.ofBool b ++ p).extractLsb' 0 6 = p := BitVec.extractLsb'_append_eq_right
  rw [pulseLut, hrow, hcol]

/-- Row 0 is the formula of bit 0, entries 60 to 63 too. -/
theorem pulseRow_false_getLsbD : ∀ n < 64, (pulseRow false).getLsbD n = (n % 4 == 1) := by decide

/-- Row 1 is the formula of bit 1, entries 60 to 63 too. -/
theorem pulseRow_true_getLsbD : ∀ n < 64, (pulseRow true).getLsbD n = (n % 3 == 2) := by decide

theorem pulseRow_getLsbD (b : Bit) (p : Phase) : (pulseRow b).getLsbD p.toNat = pulse true b p := by
  cases b with
  | false => rw [pulseRow_false_getLsbD _ p.isLt, pulse_zero]
  | true => rw [pulseRow_true_getLsbD _ p.isLt, pulse_one]

/-- Settles O24: the table's index selects a bit of a row, and each row holds its bit's formula. -/
theorem pulseTableIsTheFormula : Obligations.PulseTableIsTheFormula := by
  refine ⟨fun b p => ?_, by decide, by decide, by decide, by decide, pulse_none⟩
  rw [pulseLut_index, pulseRow_getLsbD]

/-- Both tones repeat in every poll window, since 12 is a multiple of 4 and of 3 (R33). -/
theorem pulse_mod_window (b : Bit) (p : Phase) :
    pulse true b p = pulse true b (BitVec.ofNat 6 (p.toNat % 12)) := by
  have hoff : (BitVec.ofNat 6 (p.toNat % 12)).toNat = p.toNat % 12 := by
    rw [BitVec.toNat_ofNat]; omega
  cases b with
  | false => rw [pulse_zero, pulse_zero, hoff, Nat.mod_mod_of_dvd _ (by decide : 4 ∣ 12)]
  | true => rw [pulse_one, pulse_one, hoff, Nat.mod_mod_of_dvd _ (by decide : 3 ∣ 12)]

theorem windowRow_getElem? (b : Bit) :
    ∀ k < 12, (windowRow b)[k]? = some (pulse true b (BitVec.ofNat 6 k)) := by
  cases b <;> decide

/-- Settles O25: the pulse depends on the offset inside the window alone, and the row lists it for the
twelve offsets. -/
theorem windowTableIsThePulse : Obligations.WindowTableIsThePulse := by
  intro b p _
  refine ⟨?_, pulse_mod_window b p⟩
  rw [pulse_mod_window b p]
  exact windowRow_getElem? b _ (Nat.mod_lt _ (by decide))

/-- A cycle that leaves the reserved code held it already: reset writes 00 and TICK one of the three
codes in use (R53). -/
theorem coreStep_code_reserved (prm : Config.Params) (c : CoreRegs) (w : Stimulus)
    (h : (coreStep prm c w).1.opCode = 0b01#2) :
    c.opCode = 0b01#2 ∧ Stimulus.rst w = false ∧ Stimulus.tick w = false := by
  cases hr : Stimulus.rst w with
  | true =>
    rw [coreStep_of_rst prm c w hr, CoreRegs.reset_opCode] at h
    exact absurd h (by decide)
  | false =>
    cases ht : Stimulus.tick w with
    | true =>
      rw [coreStep_of_tick prm c w hr ht, coreTick_opCode] at h
      exact absurd h (opacityCode_not_reserved _ _)
    | false =>
      rw [coreStep_of_hold prm c w hr ht, coreHold_opCode] at h
      exact ⟨h, rfl, rfl⟩

/-- A code without the overlay bit is dark, the reserved one too (R32). -/
theorem opacityLut_of_dark (op : OpacityCode) (h : op.getLsbD 1 = false) : opacityLut op = 0 := by
  rw [opacityLut, if_neg (ne_true_of_eq_false h)]

/-- A code with the overlay bit shows the amplitude its low bit selects (R32). -/
theorem opacityLut_of_lit (op : OpacityCode) (h : op.getLsbD 1 = true) :
    opacityLut op = if op.getLsbD 0 then 1 / 2 else 1 / 10 := by
  rw [opacityLut, if_pos h, amplitude]

/-- Settles O26: the two bits of a code say what it shows, and a cycle operation, which is the core's
step, can only keep the reserved code. -/
theorem opacityCodesShown : Obligations.OpacityCodesShown := by
  refine ⟨opacityLut_of_dark _ rfl, opacityLut_of_lit _ rfl, opacityLut_of_lit _ rfl,
    opacityLut_of_dark _ rfl, ?_⟩
  intro w s t h hcode
  rw [exec_decodeStimulus] at h
  obtain rfl := Host.Outcome.next.inj h
  exact coreStep_code_reserved s.params s.core w hcode

end Sys2Proof.Machine
end

section
/-! SUPPORT. Encoding (30_encoding.md): the two word formats as their fields, the step and the commands
that an encoded operation meets, then the settled statements O1 to O5, O11, O15, O42, O43, O49 and O50. -/

namespace Sys2Proof

/-! Format S (R46). -/

@[simp] theorem packStimulus_fields : ∀ w : Stimulus,
    packStimulus (Stimulus.rst w) (Stimulus.tick w) (Stimulus.srcValid w) (Stimulus.srcBit w)
      (Stimulus.ampSel w) = w := by decide

/-- The field `S[4:3]` is the pair of `rst` and `tick`. -/
theorem stimulus_opcode_field : ∀ w : Stimulus,
    w.extractLsb' 3 2 = BitVec.ofBool (Stimulus.rst w) ++ BitVec.ofBool (Stimulus.tick w) := by
  decide

section
variable (t v b a : Bit)

@[simp] theorem decodeStimulus_packStimulus_rst :
    decodeStimulus (packStimulus true t v b a) = .rst t v b a := by
  rw [decodeStimulus_of_rst _ (by simp)]; simp

@[simp] theorem decodeStimulus_packStimulus_tick :
    decodeStimulus (packStimulus false true v b a) = .tick v b a := by
  rw [decodeStimulus_of_tick _ (by simp) (by simp)]; simp

@[simp] theorem decodeStimulus_packStimulus_hold :
    decodeStimulus (packStimulus false false v b a) = .hold v b a := by
  rw [decodeStimulus_of_hold _ (by simp) (by simp)]; simp

end

/-- The encoder puts every pin back where the decoder of format S read it. -/
theorem encode_decodeStimulus (w : Stimulus) : encode (decodeStimulus w) = .stimulus w := by
  have hw := packStimulus_fields w
  cases hr : Stimulus.rst w with
  | true =>
    rw [hr] at hw
    rw [decodeStimulus_of_rst w hr, encode, hw]
  | false =>
    cases ht : Stimulus.tick w with
    | true =>
      rw [hr, ht] at hw
      rw [decodeStimulus_of_tick w hr ht, encode, hw]
    | false =>
      rw [hr, ht] at hw
      rw [decodeStimulus_of_hold w hr ht, encode, hw]

/-! Format C (R49). -/

theorem packHeader_fields : ∀ h : Header,
    packHeader (h.extractLsb' 1 3) (Header.bit h) = h := by decide

/-- A header is its opcode and its low bit. -/
theorem header_eq_packHeader {h : Header} (cop : BitVec 3) {b : Bit}
    (hc : Header.cop h = cop.toNat) (hb : Header.bit h = b) : h = packHeader cop b := by
  have hcop : h.extractLsb' 1 3 = cop := BitVec.eq_of_toNat_eq hc
  rw [← hcop, ← hb, packHeader_fields]

/-- What each row of format C asks of the header (R51). -/
theorem decodeCommand_header {p : Packet} {i : Instr} (h : decodeCommand p = some i) :
    (∃ b, i = .setovr b ∧ p.header = packHeader 0b000#3 b) ∨
    (i = .clrovr ∧ p.header = packHeader 0b001#3 false) ∨
    (i = .togamp ∧ p.header = packHeader 0b010#3 false) ∨
    (i = .enqw p.text ∧ p.header = packHeader 0b011#3 false) ∨
    (i = .ber ∧ p.header = packHeader 0b100#3 false) ∨
    (i = .quit ∧ p.header = packHeader 0b101#3 false) := by
  unfold decodeCommand at h
  split_ifs at h with h0 hb h1 h2 h3 h4 h5 <;> obtain rfl := Option.some.inj h
  · exact .inl ⟨_, rfl, header_eq_packHeader _ h0 rfl⟩
  · exact .inr (.inl ⟨rfl, header_eq_packHeader _ h1 (by simpa using hb)⟩)
  · exact .inr (.inr (.inl ⟨rfl, header_eq_packHeader _ h2 (by simpa using hb)⟩))
  · exact .inr (.inr (.inr (.inl ⟨rfl, header_eq_packHeader _ h3 (by simpa using hb)⟩)))
  · exact .inr (.inr (.inr (.inr (.inl ⟨rfl, header_eq_packHeader _ h4 (by simpa using hb)⟩))))
  · exact .inr (.inr (.inr (.inr (.inr ⟨rfl, header_eq_packHeader _ h5 (by simpa using hb)⟩))))

/-- The encoder gives a command back its header, and its text where the header is ENQW's. -/
theorem encode_of_decodeCommand {p : Packet} {i : Instr} (h : decodeCommand p = some i) :
    encode i = .command ⟨p.header, if p.header = 0x6#4 then p.text else []⟩ := by
  obtain ⟨b, rfl, hh⟩ | ⟨rfl, hh⟩ | ⟨rfl, hh⟩ | ⟨rfl, hh⟩ | ⟨rfl, hh⟩ | ⟨rfl, hh⟩ :=
    decodeCommand_header h <;> rw [hh]
  · cases b <;> rfl
  all_goals rfl

theorem decode_encode (i : Instr) : decode (encode i) = some i := by
  cases i with
  | rst t v b a => simp [encode, decode]
  | hold v b a => simp [encode, decode]
  | tick v b a => simp [encode, decode]
  | setovr b => simp [encode, decode, decodeCommand]
  | clrovr => rfl
  | togamp => rfl
  | enqw text => simp [encode, decode, decodeCommand]
  | ber => rfl
  | quit => rfl

/-- Settles O1: operation by operation, then by the fields of either word format. -/
theorem decodeEncodeRoundTrip : Obligations.DecodeEncodeRoundTrip :=
  ⟨decode_encode, encode_decodeStimulus, fun _ _ _ => encode_of_decodeCommand⟩

/-- The headers that decode to nothing: an odd one that is not SETOVR's, and the opcodes 6 and 7. -/
theorem decodeCommand_eq_none_iff (p : Packet) :
    decodeCommand p = none ↔
      Header.cop p.header ≠ 0 ∧ (Header.bit p.header = true ∨ 6 ≤ Header.cop p.header) := by
  unfold decodeCommand
  split_ifs with h0 hb h1 h2 h3 h4 h5 <;> simp [*]
  omega

theorem reserved_header_iff : ∀ h : Header,
    (Header.cop h ≠ 0 ∧ (Header.bit h = true ∨ 6 ≤ Header.cop h)) ↔
      h ∈ [0b0011#4, 0b0101#4, 0b0111#4, 0b1001#4, 0b1011#4, 0b1100#4, 0b1101#4, 0b1110#4,
        0b1111#4] := by decide

/-- A command never stands for a cycle operation. -/
theorem decodeCommand_ne_decodeStimulus (p : Packet) (w : Stimulus) :
    decodeCommand p ≠ some (decodeStimulus w) := by
  intro h
  have he := encode_of_decodeCommand h
  rw [encode_decodeStimulus] at he
  exact Encoded.noConfusion he

/-- Settles O4: each word against its row. -/
theorem tableWordsDecode : Obligations.TableWordsDecode :=
  ⟨rfl, rfl, rfl, rfl, rfl, rfl, rfl, rfl, rfl, rfl⟩

/-- Settles O5: the 32 words of format S and the 16 of format C, each against the nine rows. -/
theorem tableRowsAreDisjoint : Obligations.TableRowsAreDisjoint := by
  constructor <;> decide

end Sys2Proof

namespace Sys2Proof.Machine

/-! The cycle operations and the response word. -/

/-- Settles O2: `S[4:3]` is `rst` and `tick`, by which the decoder chooses, and a cycle operation is the
core's step. -/
theorem stimulusSelectsOneOperation : Obligations.StimulusSelectsOneOperation := by
  refine ⟨fun w => ?_, fun w s => ⟨_, exec_decodeStimulus w s⟩⟩
  rw [stimulus_opcode_field]
  cases hr : Stimulus.rst w with
  | true => cases ht : Stimulus.tick w <;> simp [decodeStimulus_of_rst w hr]
  | false =>
    cases ht : Stimulus.tick w with
    | true => simp [decodeStimulus_of_tick w hr ht]
    | false => simp [decodeStimulus_of_hold w hr ht]

theorem srcTake_packStimulus (r t v b a : Bit) (c : CoreRegs) :
    srcTake (packStimulus r t v b a) c = (!r && t && isCap (next60 c.frame)) := by
  simp [srcTake]

/-- The response word reads the stimulus only through `src_take` (R47). -/
theorem responseWord_congr {w w' : Stimulus} {c : CoreRegs} (h : srcTake w c = srcTake w' c) :
    responseWord w c = responseWord w' c := by
  simp [responseWord, h]

/-- A TICK that does not capture reads neither `src_valid` nor `src_bit` (R54). -/
theorem coreTick_of_not_capture {c : CoreRegs} (h : isCap (next60 c.frame) = false)
    (v v' b b' a : Bit) : coreTick v b a c = coreTick v' b' a c := by
  simp [coreTick, h]

/-- A TICK without a valid bit does not read `src_bit` (R54). -/
theorem coreTick_of_no_bit (b b' a : Bit) (c : CoreRegs) :
    coreTick false b a c = coreTick false b' a c := by
  simp [coreTick]

theorem exec_tick (v b a : Bit) (s : State) :
    exec (.tick v b a) s = .next (s.withCore (coreTick v b a s.core)) := rfl

/-- Settles O11: RST and HOLD read no pin, TICK reads its bit only where it captures a valid one, and
`src_take` depends on `rst` and `tick` alone. -/
theorem ignoredFieldsHaveNoEffect : Obligations.IgnoredFieldsHaveNoEffect := by
  intro s t t' v v' b b' a a'
  refine ⟨⟨rfl, responseWord_congr ?_⟩, ⟨rfl, responseWord_congr ?_⟩, fun h => ?_, fun _ => ?_,
    responseWord_congr ?_⟩
  · simp [srcTake_packStimulus]
  · simp [srcTake_packStimulus]
  · rw [exec_tick, exec_tick, coreTick_of_not_capture h]
  · rw [exec_tick, exec_tick, coreTick_of_no_bit]
  · simp [srcTake_packStimulus]

/-! The fields of the response word (R47). -/

section
variable (w : Stimulus) (c : CoreRegs)

theorem responseWord_frame : (responseWord w c).extractLsb' 4 6 = c.frame := by
  rw [responseWord, BitVec.extractLsb'_append_eq_of_le (by decide),
    BitVec.extractLsb'_append_eq_of_le (by decide)]
  exact BitVec.extractLsb'_append_eq_left

theorem responseWord_opCode : (responseWord w c).extractLsb' 2 2 = c.opCode := by
  rw [responseWord, BitVec.extractLsb'_append_eq_of_le (by decide),
    BitVec.extractLsb'_append_eq_of_le (by decide)]
  exact BitVec.extractLsb'_append_eq_right

theorem responseWord_opStb : (responseWord w c).getLsbD 1 = c.opStb := by
  rw [responseWord, BitVec.getLsbD_append, BitVec.getLsbD_append]
  simp

theorem responseWord_srcTake : (responseWord w c).getLsbD 0 = srcTake w c := by
  rw [responseWord, BitVec.getLsbD_append]
  simp

/-- `src_take` falls in the capturing TICKs (R88). -/
theorem srcTake_eq_true_iff :
    srcTake w c = true ↔
      Stimulus.rst w = false ∧ Stimulus.tick w = true ∧ (next60 c.frame).toNat % 12 = 0 := by
  simp [srcTake, and_assoc]

end

/-- Settles O15, field by field. -/
theorem responseWordLayout : Obligations.ResponseWordLayout := fun w c =>
  ⟨responseWord_frame w c, responseWord_opCode w c, responseWord_opStb w c,
    by rw [responseWord_srcTake, srcTake_eq_true_iff]⟩

/-! One command, and the step that drains it. -/

theorem applyCommand_of_some {p : Packet} {i : Instr} (h : decodeCommand p = some i) (s : State) :
    applyCommand p s = exec i s := by
  simp only [applyCommand, h]

theorem applyCommand_of_none {p : Packet} (h : decodeCommand p = none) (s : State) :
    applyCommand p s = .next s := by
  simp only [applyCommand, h]

/-- Settles O3: the reserved headers by opcode and low bit, then one by one; the command processor
drops what does not decode. -/
theorem reservedHeadersAreNoOps : Obligations.ReservedHeadersAreNoOps := fun h text =>
  ⟨(decodeCommand_eq_none_iff ⟨h, text⟩).trans (reserved_header_iff h), applyCommand_of_none⟩

/-- A system tick with commands waiting applies the first one, the core held (R112, R135). -/
theorem step_of_drain {s : State} {rest : Schedule} {p : Packet} {ps : List Packet}
    (hev : nextEvent s = (.clock false true, rest)) (hq : s.quit = false) (hc : s.chan = p :: ps) :
    step s = applyCommand p (((s.withCore (coreHold s.core)).withChan ps).withInput
      (putFirst (.clock false true) rest)) := by
  rw [step_of_clock s false true rest hev, clockCycle_drain rest s p ps hq hc, applyCommand_eq]

/-- A system tick with none waiting emits its frame (R135). -/
theorem step_of_frame {s : State} {rest : Schedule}
    (hev : nextEvent s = (.clock false true, rest)) (hq : s.quit = false) (hc : s.chan = []) :
    step s = .next ((tickAfterDrain s).withInput rest) := by
  rw [step_of_clock s false true rest hev, clockCycle_tick rest s hq hc]

/-- The frame of a system tick is the TICK of the companion's pins, with a consume at a capture phase
(R135 steps 3 to 5). -/
theorem tickAfterDrain_eq {s : State} (hq : s.quit = false) :
    tickAfterDrain s =
      consumeIf (isCap (next60 s.core.frame)) (s.withCore
        (coreTick (validOf (peek s.src)) (bitOf (peek s.src)) s.ampSel s.core)) := by
  simp [tickAfterDrain, hq, systemStimulus, srcTake_packStimulus]

/-- Settles O42: a cycle of the core alone, and the three cases of a system tick. -/
theorem stepRunsTheDecodedOperation : Obligations.StepRunsTheDecodedOperation := by
  intro s rest
  refine ⟨fun w hev => step_of_pins s w rest hev, fun p ps i hev hq hc hd => ?_,
    fun p ps hev hq hc hd => ?_, fun hev hq hc => ?_⟩
  · rw [step_of_drain hev hq hc, applyCommand_of_some hd]; rfl
  · rw [step_of_drain hev hq hc, applyCommand_of_none hd]; rfl
  · refine ⟨_, _, _, rfl, decodeStimulus_packStimulus_tick _ _ _, exec_tick _ _ _ _, ?_⟩
    rw [step_of_frame hev hq hc, tickAfterDrain_eq hq]
    simp only [← isCap_eq_true]
    cases isCap (next60 s.core.frame) <;> rfl

/-! A bare table word, placed where the next step runs it. -/

theorem decodeTableWord_eq_some_iff (nbits w : Nat) (i : Instr) :
    decodeTableWord nbits w = some i ↔ ∃ e, tableEncoded nbits w = some e ∧ decode e = some i := by
  unfold decodeTableWord
  cases tableEncoded nbits w <;> simp

section
variable {nbits w : Nat} (s : State)

theorem step_withFetchWord_stimulus {x : Stimulus}
    (h : tableEncoded nbits w = some (.stimulus x)) :
    step (s.withFetchWord nbits w) = exec (decodeStimulus x) s := by
  have hplaced : s.withFetchWord nbits w = s.withInput (putFirst (.pins x) s.input) := by
    simp only [State.withFetchWord, placeTableWord, h]
  rw [hplaced, step_of_pins _ x s.input rfl]
  simp

theorem step_withFetchWord_command {p : Packet}
    (h : tableEncoded nbits w = some (.command p)) :
    step (s.withFetchWord nbits w) = applyCommand p { s with
      core := { s.core with opStb := false }, quit := false,
      input := putFirst (.clock false true) s.input } := by
  have hplaced : s.withFetchWord nbits w =
      ((s.withQuit false).withChan (p :: s.chan)).withInput
        (putFirst (.clock false true) s.input) := by
    simp only [State.withFetchWord, placeTableWord, h]
  rw [hplaced, step_of_drain (nextEvent_clock _ false true s.input) rfl rfl]
  rfl

end

/-- Settles O43: the format the word is taken for says whether it stands on the pins or heads the
channel, and no operation is of both formats. -/
theorem placedWordRunsNext : Obligations.PlacedWordRunsNext := by
  intro s nbits w i hdec
  obtain ⟨e, henc, he⟩ := (decodeTableWord_eq_some_iff nbits w i).mp hdec
  cases e with
  | stimulus x =>
    obtain rfl := Option.some.inj he
    exact ⟨fun _ => step_withFetchWord_stimulus s henc,
      fun ⟨p, hp⟩ => absurd hp (decodeCommand_ne_decodeStimulus p x)⟩
  | command p =>
    refine ⟨fun ⟨x, hx⟩ => absurd (hx ▸ he) (decodeCommand_ne_decodeStimulus p x), fun _ => ?_⟩
    rw [step_withFetchWord_command s henc, applyCommand_of_some he]

/-! The collaborator's lines and keys (R58, R59). -/

/-- The header of SETOVR `b`, written out. -/
theorem packHeader_setovr (b : Bit) :
    bareCommand (packHeader 0b000#3 b) = if b then ⟨0b0001#4, []⟩ else ⟨0b0000#4, []⟩ := by
  cases b <;> rfl

theorem toggleOverride_eq (copy : Option Bit) (b : Bit) :
    toggleOverride copy b =
      if copy = some b then ⟨0b0010#4, []⟩ else if b then ⟨0b0001#4, []⟩ else ⟨0b0000#4, []⟩ := by
  rw [toggleOverride, packHeader_setovr]; rfl

/-- The line `b` mirrors the key of override `b`. -/
theorem lineCommand_override (copy : Option Bit) (b : Bit) :
    lineCommand copy [if b then 49 else 48] = some (toggleOverride copy b) := by
  cases b <;> rfl

/-- A line that is neither reserved nor empty is a word. -/
theorem lineCommand_word (copy : Option Bit) {line : List Nat}
    (h : line ∉ [lineZero, lineOne, lineBer, lineQuit, []]) :
    lineCommand copy line = some ⟨0b0110#4, line⟩ := by
  simp only [List.mem_cons, List.not_mem_nil, or_false, not_or] at h
  obtain ⟨h0, h1, hber, hquit, hempty⟩ := h
  rw [lineCommand, if_neg h0, if_neg h1, if_neg hber, if_neg hquit, if_neg hempty]
  rfl

/-- Settles O49: the reserved lines by their comparison, any other by failing all of them. -/
theorem lineForms : Obligations.LineForms := fun copy =>
  ⟨rfl, rfl, rfl, congrArg some (toggleOverride_eq copy false),
    congrArg some (toggleOverride_eq copy true), fun _ => lineCommand_word copy, rfl⟩

/-- Settles O50: the copy the key and the line toggle from is, in a legal state, the override after the
commands posted. -/
theorem toggleFollowsPostedCommands : Obligations.ToggleFollowsPostedCommands := by
  intro s b h
  simp only [actionCommand, lineCommand_override, toggleOverride_eq, h.copy_agrees, and_self]

end Sys2Proof.Machine
end

section
/-! SUPPORT. The frame counter (40_frame_counter.md): the successor phase, the counter along a list of
stimulus words, and what holds of every reachable state, then the settled statements O16, O14, O17
and O18. -/

namespace Sys2Proof.Machine

/-! The successor phase (R61, R65). -/

section
variable {f : Phase}

theorem next60_toNat_of_ge (h : 59 ≤ f.toNat) : (next60 f).toNat = 0 := by
  rw [next60_toNat, if_pos h]

theorem next60_toNat_of_lt (h : f.toNat < 59) : (next60 f).toNat = f.toNat + 1 := by
  rw [next60_toNat, if_neg (by omega)]

/-- In range the successor is addition modulo `FRAME_MOD`. -/
theorem next60_toNat_mod (h : f.toNat ≤ 59) : (next60 f).toNat = (f.toNat + 1) % 60 := by
  rw [next60_toNat]
  split <;> omega

theorem next60_of_ge (h : 59 ≤ f.toNat) : next60 f = 0#6 :=
  BitVec.eq_of_toNat_eq (next60_toNat_of_ge h)

end

/-- Settles O16, clause by clause. -/
theorem successorPhase : Obligations.SuccessorPhase := fun f =>
  ⟨next60_toNat_of_ge, next60_toNat_of_lt, next60_toNat_mod, next60_le f⟩

theorem exec_hold (v b a : Bit) (s : State) :
    exec (.hold v b a) s = .next (s.withCore (coreHold s.core)) := rfl

/-- Settles O14: the successor of such a value is 0, which is a capture phase; HOLD and the response
word take the counter as it stands. -/
theorem unreachablePhasesRecover : Obligations.UnreachablePhasesRecover := by
  intro s v b a w h
  have hzero : next60 s.core.frame = 0#6 := next60_of_ge (by omega)
  have htake : srcTake (packStimulus false true v b a) s.core = true := by
    rw [srcTake_packStimulus, hzero]; rfl
  exact ⟨hzero, htake, ⟨_, exec_tick v b a s, hzero⟩, ⟨_, exec_hold v b a s, rfl⟩,
    responseWord_frame w s.core⟩

/-! The counter along a list of stimulus words (R62, R63, R66). -/

theorem noReset_iff (w : Stimulus) : noReset w = true ↔ Stimulus.rst w = false := by
  simp [noReset]

theorem tickCount_cons (w : Stimulus) (ws : List Stimulus) :
    tickCount (w :: ws) = tickCount ws + if Stimulus.tick w then 1 else 0 :=
  List.countP_cons

/-- Without a reset a cycle advances the counter by its own `tick`. -/
theorem coreStep_frame_toNat (prm : Config.Params) {c : CoreRegs} {w : Stimulus}
    (h : c.frame.toNat ≤ 59) (hr : Stimulus.rst w = false) :
    (coreStep prm c w).1.frame.toNat =
      (c.frame.toNat + if Stimulus.tick w then 1 else 0) % 60 := by
  cases ht : Stimulus.tick w with
  | true => rw [coreStep_of_tick prm c w hr ht]; exact next60_toNat_mod h
  | false =>
    rw [coreStep_of_hold prm c w hr ht]
    exact (Nat.mod_eq_of_lt (Nat.lt_succ_of_le h)).symm

/-- Settles O17, by induction on the cycles: each leaves the counter a value modulo 60. -/
theorem phaseAfterTicks : Obligations.PhaseAfterTicks := by
  intro prm ws
  induction ws with
  | nil => exact fun c h _ => (Nat.mod_eq_of_lt (Nat.lt_succ_of_le h)).symm
  | cons w ws ih =>
    intro c h hws
    rw [List.all_cons, Bool.and_eq_true, noReset_iff] at hws
    obtain ⟨hr, hws⟩ := hws
    have hnext := coreStep_frame_toNat prm h hr
    calc (coreRun prm (w :: ws) c).frame.toNat
        = ((coreStep prm c w).1.frame.toNat + tickCount ws) % 60 := ih _ (by omega) hws
      _ = (c.frame.toNat + tickCount (w :: ws)) % 60 := by rw [hnext, tickCount_cons]; omega

/-! The induction over runs, once. -/

/-- What every step keeps holds along a run. -/
theorem run_keeps {P : State → Prop} (hstep : ∀ s t, P s → step s = .next t → P t) (k : Nat)
    {s u : State} (hs : P s) (h : Host.Core.run Sys2Proof.core k s = .next u) : P u := by
  induction k generalizing s with
  | zero => exact Host.Outcome.next.inj h ▸ hs
  | succ k ih =>
    obtain ⟨t, ht⟩ := step_answers s
    rw [run_of_step k s t ht] at h
    exact ih (hstep s t hs ht) h

/-- What holds of every reset state and is kept by every step holds of every reachable state. -/
theorem Reachable.induction {P : State → Prop}
    (hreset : ∀ prm l, P ((State.resetWith prm).withInput l))
    (hstep : ∀ s t, P s → step s = .next t → P t) {s : State} (h : Reachable s) : P s := by
  obtain ⟨prm, l, k, hrun⟩ := h
  exact run_keeps hstep k (hreset prm l) hrun

theorem Reachable.legal {s : State} (h : Reachable s) : Legal s :=
  h.induction resetStatesAreLegal everyStepKeepsTheInvariant

/-- Settles O18: the range of the counter is a clause of the invariant. -/
theorem frameInRangeWhenReachable : Obligations.FrameInRangeWhenReachable :=
  fun _ h => h.legal.core.frame_le

end Sys2Proof.Machine
end

section
/-! SUPPORT. The bit source (41_bit_source.md): `peek` and `consume` in each of its four variants, what
repeated polls return in each, and which step takes a bit, then the settled statements O29, O30, O31,
O32, O33 and O56. -/

namespace Sys2Proof.Machine

/-! The four variants of the bit source (R72, R73). -/

theorem overrideOf_eq_some (e : BitSource) (b : Bit) :
    overrideOf e = some b ↔ e.ovrV = true ∧ e.ovrB = b := by
  cases h : e.ovrV <;> simp [overrideOf, optionalBit, h]

/-- What taking the next bit does, by the branch `peek` takes. -/
theorem consume_cases (e : BitSource) :
    consume e = e ∨
    (overrideOf e = none ∧ 0 < e.berRem ∧ consume e = { e with berRem := e.berRem - 1 }) ∨
    (overrideOf e = none ∧ e.berRem = 0 ∧ consume e = { e with queue := e.queue.tail }) := by
  obtain hv | hv := Bool.eq_false_or_eq_true e.ovrV
  · exact .inl (consume_of_override e hv)
  · have ho : overrideOf e = none := (overrideOf_eq_none e).mpr hv
    obtain hn | hn := Nat.eq_zero_or_pos e.berRem
    · exact .inr (.inr ⟨ho, hn, consume_of_queue e hv hn⟩)
    · exact .inr (.inl ⟨ho, hn, consume_of_ber e hv hn⟩)

/-- An idle source has no bit, and there is none to drop (R78). -/
theorem peek_consume_of_idle {e : BitSource} (hv : e.ovrV = false) (hn : e.berRem = 0)
    (hq : e.queue = []) : peek e = none ∧ consume e = e := by
  rw [peek_of_queue e hv hn, consume_of_queue e hv hn, hq]
  exact ⟨rfl, by rw [List.tail_nil, ← hq]⟩

/-- Settles O29: one clause per variant, each by the equations of `peek` and `consume` there. -/
theorem peekAndConsumeByPrecedence : Obligations.PeekAndConsumeByPrecedence := by
  intro e
  simp only [overrideOf_eq_none, overrideOf_eq_some]
  refine ⟨?_, ?_, ?_, fun hv hn hq => peek_consume_of_idle hv hn hq⟩
  · rintro b ⟨hv, rfl⟩ -- override
    exact ⟨peek_of_override e hv, consume_of_override e hv⟩
  · intro n hv hn -- BER test
    have hpos : 0 < e.berRem := by omega
    rw [peek_of_ber e hv hpos, consume_of_ber e hv hpos, hn]
    exact ⟨rfl, rfl⟩
  · intro b q hv hn hq -- queue
    rw [peek_of_queue e hv hn, consume_of_queue e hv hn, hq]
    exact ⟨rfl, rfl⟩

/-! Polls in a row (R74). -/

@[simp] theorem polls_zero (e : BitSource) : polls 0 e = ([], e) := rfl

theorem polls_succ (n : Nat) (e : BitSource) :
    polls (n + 1) e = (peek e :: (polls n (consume e)).1, (polls n (consume e)).2) := rfl

/-- A source that a poll does not change answers every poll alike. -/
theorem polls_of_consume_eq_self {e : BitSource} (h : consume e = e) (n : Nat) :
    polls n e = (List.replicate n (peek e), e) := by
  induction n with
  | zero => rfl
  | succ n ih => rw [polls_succ, h, ih, List.replicate_succ]

/-- A test of `n` polls answers their countdown's parities and leaves the rest (R76). -/
theorem polls_of_ber (n : Nat) {e : BitSource} (hv : e.ovrV = false) (hn : e.berRem = n) :
    polls n e =
      ((List.range n).map (fun k => some ((n - 1 - k) % 2 == 1)), { e with berRem := 0 }) := by
  induction n generalizing e with
  | zero => rw [polls_zero, List.range_zero, List.map_nil, ← hn]
  | succ n ih =>
    have hpos : 0 < e.berRem := by omega
    have hrest := ih (e := { e with berRem := n }) hv rfl
    rw [polls_succ, peek_of_ber e hv hpos, consume_of_ber e hv hpos, hn, Nat.add_sub_cancel, hrest,
      List.range_succ_eq_map, List.map_cons, List.map_map]
    simp [Function.comp_def, Nat.sub_sub, Nat.add_comm]

/-- With no override and no test, the polls return the queue from its front and empty it (R77). -/
theorem polls_of_queue (q : List Bit) {e : BitSource} (hv : e.ovrV = false) (hn : e.berRem = 0)
    (hq : e.queue = q) : polls q.length e = (q.map some, { e with queue := [] }) := by
  induction q generalizing e with
  | nil => rw [List.length_nil, polls_zero, List.map_nil, ← hq]
  | cons b q ih =>
    have hrest := ih (e := { e with queue := q }) hv hn rfl
    rw [List.length_cons, polls_succ, peek_of_queue e hv hn, consume_of_queue e hv hn, hq,
      List.head?_cons, List.tail_cons, hrest, List.map_cons]

/-- Settles O33: no poll changes an idle source. -/
theorem idleIsStable : Obligations.IdleIsStable := by
  intro e n ho hn hq
  obtain ⟨hpeek, hkept⟩ := peek_consume_of_idle ((overrideOf_eq_none e).mp ho) hn hq
  rw [polls_of_consume_eq_self hkept, hpeek]

/-- Settles O30: no poll changes an overridden source, and the two commands write the override only. -/
theorem overrideIsRepeatable : Obligations.OverrideIsRepeatable := by
  intro b s n
  have hpolls : polls n (setOverride b s.src) =
      (List.replicate n (some b), setOverride b s.src) :=
    polls_of_consume_eq_self (consume_of_override (setOverride b s.src) rfl) n
  refine ⟨s.withSrc (setOverride b s.src), s.withSrc (clearOverride (setOverride b s.src)),
    rfl, hpolls, ?_, rfl, rfl, rfl⟩
  rw [State.withSrc_src, hpolls]
  rfl

/-- Settles O31: BER starts a test of 200 polls beside the queue. -/
theorem berSequence : Obligations.BerSequence := fun s ho =>
  ⟨s.withSrc (startBer s.src), rfl,
    polls_of_ber 200 (e := startBer s.src) ((overrideOf_eq_none s.src).mp ho) rfl⟩

/-- An accepted word finds room in an unbounded queue (R44, R117). -/
theorem enqueueWord_unbounded {text : List Nat} (h : textAccepted text = true) (e : BitSource) :
    enqueueWord none text e = { e with queue := e.queue ++ wordToBits text } := by
  simp [enqueueWord, h, queueHasRoom]

/-- Settles O32: the word joins the tail of the queue, and the polls empty the queue in order. -/
theorem wordIsPolledInOrder : Obligations.WordIsPolledInOrder := by
  intro s text ho hn hd hne hcodes
  have hsrc := enqueueWord_unbounded ((textAccepted_iff text).mpr ⟨hne, hcodes⟩) s.src
  have hpolls := polls_of_queue (s.src.queue ++ wordToBits text)
    (e := { s.src with queue := s.src.queue ++ wordToBits text })
    ((overrideOf_eq_none s.src).mp ho) hn rfl
  rw [List.length_append, wordToBits_length] at hpolls
  refine ⟨s.withSrc (enqueueWord s.params.queueDepth text s.src), rfl, ?_⟩
  rw [State.withSrc_src, hd, hsrc, hpolls, wordToBits_eq]

/-! Which step takes a bit. -/

/-- No command lowers the count of a legal test: BER starts it at the greatest value (R119, R21). -/
theorem berRem_le_applied (p : Packet) {s : State} (hs : s.src.berRem ≤ 200) :
    s.src.berRem ≤ (applied p s).src.berRem := by
  obtain ⟨-, e⟩ | ⟨b, -, e⟩ | ⟨-, e⟩ | ⟨-, e⟩ | ⟨-, e⟩ | ⟨-, e⟩ | ⟨-, e⟩ := applied_cases p s <;>
    rw [e]
  case inr.inr.inr.inr.inl => -- ENQW
    obtain h | ⟨-, -, h⟩ := enqueueWord_cases s.params.queueDepth p.text s.src <;>
      rw [State.withSrc_src, h]
  case inr.inr.inr.inr.inr.inl => exact hs -- BER
  all_goals exact le_rfl

/-- No command shortens the queue (R117, R118). -/
theorem queue_length_le_applied (p : Packet) (s : State) :
    s.src.queue.length ≤ (applied p s).src.queue.length := by
  obtain h | ⟨-, -, h⟩ := applied_queue_eq_or p s <;> simp [h]

/-- From the source `e` to the source `f` no poll of the test and no queued bit went. -/
structure TakesNoBit (e f : BitSource) : Prop where
  berRem : e.berRem ≤ f.berRem
  queue : e.queue.length ≤ f.queue.length

theorem TakesNoBit.of_eq {e f : BitSource} (h : f = e) : TakesNoBit e f := h ▸ ⟨le_rfl, le_rfl⟩

/-- The step from `s` to `t` is a system tick that emits its frame at a capture phase, and its one
consume (R88, R135). -/
structure CapturesFrame (s t : State) : Prop where
  event : ∃ rest, nextEvent s = (.clock false true, rest)
  quit : s.quit = false
  chan : s.chan = []
  strobe : t.core.opStb = true
  phase : t.core.frame.toNat % 12 = 0
  src : t.src = consume s.src

/-- Outside a reset a step takes no bit, or it captures. -/
theorem step_takesNoBit_or_captures {s t : State} (hber : s.src.berRem ≤ 200)
    (h : step s = .next t) (hr : ∀ k rest, nextEvent s ≠ (.clock true k, rest)) :
    TakesNoBit s.src t.src ∨ CapturesFrame s t := by
  obtain ⟨a, rest, -, rfl⟩ | ⟨w, rest, -, rfl⟩ | ⟨k, rest, hev, -⟩ |
    ⟨rest, p, ps, -, -, -, rfl⟩ | ⟨rest, hev, hq, hc, rfl⟩ | ⟨k, rest, -, -, rfl⟩ :=
      step_cases s t h
  · -- an act of the collaborator
    obtain ⟨-, hsrc, -⟩ := collaborate_frame a (s.withInput rest)
    exact .inl (.of_eq hsrc)
  · exact .inl (.of_eq rfl) -- a cycle of the core alone
  · exact absurd hev (hr k rest) -- SYS_RESET
  · -- a drained command
    rw [applied_withInput, applied_withChan, applied_withCore]
    exact .inl ⟨berRem_le_applied p hber, queue_length_le_applied p s⟩
  · -- the frame of a system tick
    obtain ⟨hcore, hsrc, -⟩ := tickAfterDrain_fields s hq
    cases hcap : isCap (next60 s.core.frame) with
    | true =>
      refine .inr ⟨⟨rest, hev⟩, hq, hc, ?_, ?_, ?_⟩
      · rw [State.withInput_core, hcore, coreTick_opStb]
      · rw [State.withInput_core, hcore, coreTick_frame]
        exact (isCap_eq_true _).mp hcap
      · rw [State.withInput_src, hsrc, if_pos hcap]
    | false => exact .inl (.of_eq (by rw [State.withInput_src, hsrc, hcap]; rfl))
  · exact .inl (.of_eq rfl) -- SYS_HOLD

/-- Settles O56: a step that takes a bit captures, and its consume takes one poll of the test or one
bit of the queue, never both. -/
theorem onlyCapturesConsume : Obligations.OnlyCapturesConsume := by
  intro s t hlegal hstep hr
  obtain hkept | hcap := step_takesNoBit_or_captures hlegal.ber_le hstep hr
  · exact ⟨fun h => absurd hkept.berRem h.not_ge, fun h => absurd hkept.queue h.not_ge⟩
  · obtain ⟨hev, hq, hc, hstb, hphase, hsrc⟩ := hcap
    rw [hsrc]
    obtain hsame | ⟨ho, hn, htest⟩ | ⟨ho, hn, hqueue⟩ := consume_cases s.src
    · rw [hsame]
      exact ⟨fun h => absurd h (lt_irrefl _), fun h => absurd h (lt_irrefl _)⟩
    · rw [htest]
      exact ⟨fun _ => ⟨hev, hq, hc, hstb, hphase, ho, Nat.sub_add_cancel hn, rfl⟩,
        fun h => absurd h (lt_irrefl _)⟩
    · rw [hqueue]
      exact ⟨fun h => absurd h (lt_irrefl _),
        fun _ => ⟨hev, hq, hc, hstb, hphase, ho, hn, rfl⟩⟩

end Sys2Proof.Machine
end

section
/-! SUPPORT. The bit-latch sampler (42_bit_latch_sampler.md): which cycles take a bit, what a cycle does
to the latch, and how many cycles of a run take a bit, then the settled statements O10 and O19. -/

namespace Sys2Proof.Machine

/-! Which cycles take a bit (R88). -/

section
variable {w : Stimulus} (c : CoreRegs)

theorem srcTake_of_tick (hr : Stimulus.rst w = false) (ht : Stimulus.tick w = true) :
    srcTake w c = isCap (next60 c.frame) := by
  simp [srcTake, hr, ht]

theorem srcTake_of_hold (ht : Stimulus.tick w = false) : srcTake w c = false := by
  simp [srcTake, ht]

end

/-! The latch (R87, R89). -/

/-- A cycle without reset that takes no bit keeps the latch. -/
theorem coreStep_latch_of_not_take (prm : Config.Params) {c : CoreRegs} {w : Stimulus}
    (hr : Stimulus.rst w = false) (hn : srcTake w c = false) :
    (coreStep prm c w).1.lbV = c.lbV ∧ (coreStep prm c w).1.lbB = c.lbB := by
  cases ht : Stimulus.tick w with
  | true =>
    have hcap : isCap (next60 c.frame) = false := srcTake_of_tick c hr ht ▸ hn
    rw [coreStep_of_tick prm c w hr ht, coreTick_lbV, coreTick_lbB, hcap]
    exact ⟨rfl, rfl⟩
  | false =>
    rw [coreStep_of_hold prm c w hr ht]
    exact ⟨rfl, rfl⟩

/-- Settles O10: a cycle operation is the core's step; RST makes the reset registers, and without a
capture the latch is kept. -/
theorem latchHeldBetweenCaptures : Obligations.LatchHeldBetweenCaptures := by
  intro w s t h
  rw [exec_decodeStimulus] at h
  obtain rfl := Host.Outcome.next.inj h
  refine ⟨fun hr => ?_, coreStep_latch_of_not_take s.params⟩
  rw [State.withCore_core, coreStep_of_rst s.params s.core w hr]
  exact ⟨rfl, rfl⟩

/-! The number of captures in a run (R91). -/

theorem count_coreTakes_cons (prm : Config.Params) (w : Stimulus) (ws : List Stimulus)
    (c : CoreRegs) :
    (coreTakes prm (w :: ws) c).count true =
      (coreTakes prm ws (coreStep prm c w).1).count true + if srcTake w c then 1 else 0 := by
  rw [coreTakes, List.count_cons]
  simp [coreStep]

/-- The captures of a run without reset, whose first TICK would emit phase `p`, are the multiples of
`WINDOW` among the next `tickCount ws` numbers from `p` on: `⌈n / 12⌉` of them lie below `n`. The wrap
from 59 to 0 loses none, because 12 divides 60. -/
theorem count_coreTakes (prm : Config.Params) (ws : List Stimulus) (c : CoreRegs)
    (hws : ws.all noReset = true) :
    (coreTakes prm ws c).count true + ((next60 c.frame).toNat + 11) / 12 =
      ((next60 c.frame).toNat + tickCount ws + 11) / 12 := by
  induction ws generalizing c with
  | nil => exact Nat.zero_add _
  | cons w ws ih =>
    rw [List.all_cons, Bool.and_eq_true, noReset_iff] at hws
    obtain ⟨hr, hws⟩ := hws
    have hrest := ih (coreStep prm c w).1 hws
    rw [count_coreTakes_cons, tickCount_cons]
    cases ht : Stimulus.tick w with
    | true =>
      have hle := next60_le c.frame
      rw [coreStep_of_tick prm c w hr ht] at hrest ⊢
      rw [coreTick_frame, next60_toNat_mod hle] at hrest
      simp only [srcTake_of_tick c hr ht, isCap_eq_true, if_true]
      split <;> omega
    | false =>
      rw [coreStep_of_hold prm c w hr ht] at hrest ⊢
      rwa [srcTake_of_hold c ht]

/-- Settles O19: 12 TICKs raise the number of capture phases passed by 1, and 60 raise it by 5,
whichever phase comes first. -/
theorem oneCapturePerWindow : Obligations.OneCapturePerWindow := by
  intro prm ws c hws
  have hcount := count_coreTakes prm ws c hws
  exact ⟨fun h => by rw [h] at hcount; omega, fun h => by rw [h] at hcount; omega⟩

end Sys2Proof.Machine
end

section
/-! SUPPORT. The modulator (43_modulator.md): the intensity of a latch pair and of an opacity code, the
pulses of the two tones, and what a cycle reads of the core, then the settled statements O12, O54, O20,
O21, O22, O23 and O27. -/

namespace Sys2Proof.Machine

/-! What no rule reads back (R107). -/

/-- The two cores agree in the counter and the latch; their output registers may differ. -/
structure SameButOutputs (c d : CoreRegs) : Prop where
  frame : c.frame = d.frame
  lbV : c.lbV = d.lbV
  lbB : c.lbB = d.lbB

theorem SameButOutputs.refl (c : CoreRegs) : SameButOutputs c c := ⟨rfl, rfl, rfl⟩

/-- The part of the intensity stream that a cycle with next registers `c` adds (`coreStream_cons`). -/
def emitted (c : CoreRegs) : List OpacityCode := if c.opStb then [c.opCode] else []

theorem coreStream_cons (prm : Config.Params) (w : Stimulus) (ws : List Stimulus) (c : CoreRegs) :
    coreStream prm (w :: ws) c =
      emitted (coreStep prm c w).1 ++ coreStream prm ws (coreStep prm c w).1 := rfl

@[simp] theorem emitted_coreHold (c : CoreRegs) : emitted (coreHold c) = [] := rfl

section
variable {c d : CoreRegs}

theorem SameButOutputs.hold (h : SameButOutputs c d) :
    SameButOutputs (coreHold c) (coreHold d) := ⟨h.frame, h.lbV, h.lbB⟩

theorem SameButOutputs.srcTake_eq (h : SameButOutputs c d) (w : Stimulus) :
    srcTake w c = srcTake w d := by
  rw [srcTake, srcTake, h.frame]

/-- TICK writes both output registers anew. -/
theorem SameButOutputs.coreTick_eq (h : SameButOutputs c d) (v b a : Bit) :
    coreTick v b a c = coreTick v b a d := by
  simp only [coreTick, h.frame, h.lbV, h.lbB]

/-- One cycle makes the two cores equal, or it is a HOLD of both. -/
theorem SameButOutputs.coreStep_eq_or_hold (h : SameButOutputs c d) (prm : Config.Params)
    (w : Stimulus) :
    (coreStep prm c w).1 = (coreStep prm d w).1 ∨
    ((coreStep prm c w).1 = coreHold c ∧ (coreStep prm d w).1 = coreHold d) := by
  cases hr : Stimulus.rst w with
  | true => exact .inl (by rw [coreStep_of_rst prm c w hr, coreStep_of_rst prm d w hr])
  | false =>
    cases ht : Stimulus.tick w with
    | true =>
      exact .inl (by
        rw [coreStep_of_tick prm c w hr ht, coreStep_of_tick prm d w hr ht, h.coreTick_eq])
    | false => exact .inr ⟨coreStep_of_hold prm c w hr ht, coreStep_of_hold prm d w hr ht⟩

/-- One cycle keeps the agreement and adds the same to the stream. -/
theorem SameButOutputs.cycle (h : SameButOutputs c d) (prm : Config.Params) (w : Stimulus) :
    SameButOutputs (coreStep prm c w).1 (coreStep prm d w).1 ∧
    emitted (coreStep prm c w).1 = emitted (coreStep prm d w).1 := by
  obtain heq | ⟨hc, hd⟩ := h.coreStep_eq_or_hold prm w
  · rw [heq]; exact ⟨.refl _, rfl⟩
  · rw [hc, hd]; exact ⟨h.hold, rfl⟩

end

/-- Settles O12, by induction on the cycles: each takes the same, emits the same, and leaves two cores
that agree but for the output registers. -/
theorem outputRegistersNeverReadBack : Obligations.OutputRegistersNeverReadBack := by
  intro prm ws
  induction ws with
  | nil => exact fun c d hf hv hb => ⟨rfl, rfl, hf, hv, hb⟩
  | cons w ws ih =>
    intro c d hf hv hb
    have h : SameButOutputs c d := ⟨hf, hv, hb⟩
    obtain ⟨hnext, hemit⟩ := h.cycle prm w
    obtain ⟨htakes, hstream, hrun⟩ := ih _ _ hnext.frame hnext.lbV hnext.lbB
    refine ⟨?_, ?_, hrun⟩
    · rw [coreTakes, coreTakes, htakes]
      exact congrArg (· :: _) (h.srcTake_eq w)
    · rw [coreStream_cons, coreStream_cons, hemit, hstream]

/-! A command drained before its tick's frame (R102, R135). -/

/-- The drain of a channel of one command applies that command. -/
theorem drain_of_single {s : State} {p : Packet} (hq : s.quit = false) (hc : s.chan = [p]) :
    drain s = (applied p s).withChan [] := by
  simp [drain, drainFrom, hc, hq]

/-- TOGAMP's header toggles the amplitude and nothing else (R116). -/
theorem applied_togamp (s : State) : applied ⟨0b0100#4, []⟩ s = s.withAmpSel (!s.ampSel) := rfl

/-- Without a capture TICK keeps the latch and shows its pulse at the next phase. -/
theorem coreTick_latch_code_of_not_capture (v b a : Bit) {c : CoreRegs}
    (h : isCap (next60 c.frame) = false) :
    (coreTick v b a c).lbV = c.lbV ∧ (coreTick v b a c).lbB = c.lbB ∧
    (coreTick v b a c).opCode = opacityCode (pulse c.lbV c.lbB (next60 c.frame)) a := by
  simp [h]

/-- Settles O54: the frame of the tick is made after the drain, with the amplitude that TOGAMP left. -/
theorem amplitudeSampledEveryTick : Obligations.AmplitudeSampledEveryTick := by
  intro s hq hc hphase
  have hdrain : drain s = (s.withAmpSel (!s.ampSel)).withChan [] := by
    rw [drain_of_single hq hc, applied_togamp]
  obtain ⟨hcore, -, hamp, -⟩ := tickAfterDrain_fields ((s.withAmpSel (!s.ampSel)).withChan []) hq
  obtain ⟨hv, hb, hcode⟩ := coreTick_latch_code_of_not_capture (validOf (peek s.src))
    (bitOf (peek s.src)) (!s.ampSel) ((isCap_eq_false _).mpr hphase)
  rw [sysTick, hdrain, hcore, hamp]
  exact ⟨rfl, hcode, hv, hb⟩

/-! The intensity (R95). -/

theorem intensity_none (p : Phase) (amp : ℚ) : intensity none p amp = 0 := rfl

theorem intensity_some (b : Bit) (p : Phase) (amp : ℚ) :
    intensity (some b) p amp = if pulse true b p then amp else 0 := rfl

/-- The contract on a latch pair; the pair (0, 1) reads as "no bit" (R14). -/
theorem intensity_optionalBit (v b : Bit) (p : Phase) (amp : ℚ) :
    intensity (optionalBit v b) p amp = if pulse v b p then amp else 0 := by
  cases v with
  | false => rfl
  | true => exact intensity_some b p amp

/-- What the display shows of the code `{pl, pl & amp_sel}` (R32, R101). -/
theorem opacityLut_opacityCode (pl a : Bit) :
    opacityLut (opacityCode pl a) = if pl then amplitude a else 0 := by
  cases pl with
  | false => exact opacityLut_of_dark _ (opacityCode_bit1 false a)
  | true => rw [opacityLut, opacityCode_bit1, opacityCode_bit0, Bool.true_and]

/-- Settles O20: no bit, no pulse. -/
theorem noBitIsDark : Obligations.NoBitIsDark := intensity_none

/-- Settles O27: the code and the contract hold the same pulse, that of the registers TICK writes. -/
theorem tickShowsIntensity : Obligations.TickShowsIntensity := by
  intro v b a s t h
  rw [exec_tick] at h
  obtain rfl := Host.Outcome.next.inj h
  rw [State.withCore_core, intensity_optionalBit, coreTick_opCode, coreTick_frame,
    opacityLut_opacityCode, amplitude]

/-! The two tones (R98 to R100). -/

/-- Settles O21: the pulse of bit 0 is the remainder 1 modulo 4, and the list has those below 60. -/
theorem bitZeroTone : Obligations.BitZeroTone := by
  refine ⟨fun p amp _ => ?_, fun p hp => ?_⟩
  · simp only [intensity_some, pulse_zero, beq_iff_eq]
  · simp only [pulse_zero, beq_iff_eq, List.mem_cons, List.not_mem_nil, or_false]
    omega

/-- Settles O22: the pulse of bit 1 is the remainder 2 modulo 3, and the list has those below 60. -/
theorem bitOneTone : Obligations.BitOneTone := by
  refine ⟨fun p amp _ => ?_, fun p hp => ?_⟩
  · simp only [intensity_some, pulse_one, beq_iff_eq]
  · simp only [pulse_one, beq_iff_eq, List.mem_cons, List.not_mem_nil, or_false]
    omega

/-- The tones meet where the remainders 1 modulo 4 and 2 modulo 3 do, at 5 modulo 12. -/
theorem pulse_both_iff (p : Phase) :
    (pulse true false p = true ∧ pulse true true p = true) ↔ p.toNat % 12 = 5 := by
  simp only [pulse_zero, pulse_one, beq_iff_eq]
  omega

/-- Each of the five windows pulses as the first one does (R33). -/
theorem pulse_window_offset (b : Bit) {k i : Nat} (hk : k < 5) (hi : i < 12) :
    pulse true b (BitVec.ofNat 6 (12 * k + i)) = pulse true b (BitVec.ofNat 6 i) := by
  have hrange : 12 * k + i < 2 ^ 6 := by omega
  have hoff : (BitVec.ofNat 6 (12 * k + i)).toNat % 12 = i := by
    rw [BitVec.toNat_ofNat, Nat.mod_eq_of_lt hrange, Nat.mul_add_mod, Nat.mod_eq_of_lt hi]
  rw [pulse_mod_window, hoff]

theorem filter_pulse_window (b : Bit) {k : Nat} (hk : k < 5) :
    (List.range 12).filter (fun i => pulse true b (BitVec.ofNat 6 (12 * k + i))) =
      (List.range 12).filter (fun i => pulse true b (BitVec.ofNat 6 i)) :=
  List.filter_congr fun _ hi => pulse_window_offset b hk (List.mem_range.mp hi)

/-- Two pulses of one bit are 4 or 3 phases apart, over the wrap from 59 to 0 too. -/
theorem pulse_not_adjacent (v b : Bit) {p : Phase} (hp : p.toNat ≤ 59) :
    ¬ (pulse v b p = true ∧ pulse v b (next60 p) = true) := by
  have hnext := next60_toNat_mod hp
  cases v with
  | false => simp
  | true =>
    cases b with
    | false => simp only [pulse_zero, beq_iff_eq, hnext]; omega
    | true => simp only [pulse_one, beq_iff_eq, hnext]; omega

/-- Settles O23, clause by clause; the windows of (c) by their first one. -/
theorem pulseFacts : Obligations.PulseFacts := by
  refine ⟨fun v b p _ h => pulse_at_capture v b p ((isCap_eq_true p).mpr h),
    fun p _ => pulse_both_iff p, fun k hk => ⟨?_, ?_, ?_⟩, fun v b _ hp => pulse_not_adjacent v b hp⟩
  · rw [filter_pulse_window false hk]; decide
  · rw [filter_pulse_window true hk]; decide
  · exact List.filter_eq_nil_iff.mpr fun _ _ => by simp

end Sys2Proof.Machine
end

section
/-! SUPPORT. The command processor (44_command_processor.md): what a command and a POST write, the two
outcomes of an ENQW and the drain as a left fold, then the settled statements O34 to O41, O47 and O51. -/

namespace Sys2Proof.Machine

/-! The commands without a text: the whole next state (R114 to R116, R119, R120). -/

/-- Settles O34: SETOVR is its one write. -/
theorem setovrNextState : Obligations.SetovrNextState := fun _ _ => rfl

/-- Settles O35: CLROVR is its one write. -/
theorem clrovrNextState : Obligations.ClrovrNextState := fun _ => rfl

/-- Settles O36: the second TOGAMP inverts the amplitude back. -/
theorem togampNextState : Obligations.TogampNextState := by
  refine fun s => ⟨rfl, ?_⟩
  change Host.Outcome.next (s.withAmpSel (!!s.ampSel)) = .next s
  rw [Bool.not_not, State.withAmpSel_self]

/-- Settles O39: BER is its one write. -/
theorem berNextState : Obligations.BerNextState := fun _ => rfl

/-- Settles O40: QUIT is its one write. -/
theorem quitNextState : Obligations.QuitNextState := fun _ => rfl

/-! ENQW (R117, R118). -/

theorem exec_enqw (text : List Nat) (s : State) :
    exec (.enqw text) s = .next (s.withSrc (enqueueWord s.params.queueDepth text s.src)) := rfl

/-- An accepted word that finds room joins the tail of the queue (R44, R117). -/
theorem enqueueWord_of_room {depth : Option Nat} {text : List Nat} {e : BitSource}
    (hacc : textAccepted text = true) (hroom : queueHasRoom depth e (8 * text.length) = true) :
    enqueueWord depth text e = { e with queue := e.queue ++ wordToBits text } := by
  simp [enqueueWord, hacc, hroom]

/-- Settles O37: the text is accepted and finds room. -/
theorem enqwAppendsTheWord : Obligations.EnqwAppendsTheWord := by
  intro text s hne hcodes hfits
  have hacc : textAccepted text = true := (textAccepted_iff text).mpr ⟨hne, hcodes⟩
  rw [exec_enqw, enqueueWord_of_room hacc ((queueHasRoom_iff _ _ _).mpr hfits), wordToBits_eq]
  rfl

/-- Settles O38: an ENQW that does not leave the source has accepted its text and found room, against
each of the three grounds. -/
theorem enqwRejectedWhole : Obligations.EnqwRejectedWhole := by
  intro text s hground
  obtain hsame | ⟨hacc, hroom, -⟩ := enqueueWord_cases s.params.queueDepth text s.src
  · rw [exec_enqw, hsame, State.withSrc_self]
  · obtain ⟨hne, hcodes⟩ := (textAccepted_iff text).mp hacc
    obtain hempty | ⟨c, hc, hwide⟩ | ⟨d, hd, hover⟩ := hground
    · exact absurd hempty hne
    · exact absurd (hcodes c hc) (Nat.not_le.mpr hwide)
    · exact absurd ((queueHasRoom_iff _ _ _).mp hroom d hd) (Nat.not_le.mpr hover)

/-! What a command writes (R113, R122). -/

/-- To run what a header decodes to is to apply the command. -/
theorem exec_of_decodeCommand {p : Packet} {i : Instr} (h : decodeCommand p = some i) (s : State) :
    exec i s = .next (applied p s) :=
  (applyCommand_of_some h s).symm.trans (applyCommand_eq p s)

/-- Only BER writes the count of the test, and it starts it anew (R119, R122). -/
theorem applied_berRem_eq_or (p : Packet) (s : State) :
    (applied p s).src.berRem = s.src.berRem ∨
    (decodeCommand p = some .ber ∧ (applied p s).src.berRem = 200) := by
  obtain ⟨-, e⟩ | ⟨b, -, e⟩ | ⟨-, e⟩ | ⟨-, e⟩ | ⟨-, e⟩ | ⟨hd, e⟩ | ⟨-, e⟩ := applied_cases p s
  case inr.inr.inr.inr.inl => -- ENQW
    left
    obtain h | ⟨-, -, h⟩ := enqueueWord_cases s.params.queueDepth p.text s.src <;>
      rw [e, State.withSrc_src, h]
  case inr.inr.inr.inr.inr.inl => exact .inr ⟨hd, by rw [e]; rfl⟩ -- BER
  all_goals exact .inl (congrArg (fun u => u.src.berRem) e)

/-- Settles O41: the next state is that of the applied command, register by register. -/
theorem commandsWriteOnlyTheirRegister : Obligations.CommandsWriteOnlyTheirRegister := by
  intro p i s hd
  have decodes {j : Instr} (hj : decodeCommand p = some j) : i = j :=
    Option.some.inj (hd.symm.trans hj)
  refine ⟨applied p s, exec_of_decodeCommand hd s, applied_core p s, applied_chan p s,
    applied_params p s, applied_ovrCopy p s, applied_input p s, ?_, ?_, ?_, ?_, ?_⟩
  · -- the override
    by_cases hsame : ((applied p s).src.ovrV, (applied p s).src.ovrB) = (s.src.ovrV, s.src.ovrB)
    · exact .inl (Prod.mk.inj hsame)
    · exact .inr ((applied_override_ne hsame).imp (fun ⟨b, hb⟩ => ⟨b, decodes hb⟩) decodes)
  · exact (applied_berRem_eq_or p s).imp_right fun ⟨hj, h200⟩ => ⟨decodes hj, h200⟩
  · -- the queue
    obtain hsame | ⟨hj, -, happ⟩ := applied_queue_eq_or p s
    · exact .inl hsame
    · exact .inr ⟨p.text, decodes hj, wordToBits p.text, happ.symm⟩
  · exact or_iff_not_imp_left.mpr fun hne => decodes (applied_ampSel_ne hne)
  · -- `quit`
    by_cases hj : decodeCommand p = some .quit
    · exact .inr (decodes hj)
    · exact .inl (by simp [applied_quit, hj])

/-! The drain (R38, R112, R120). -/

theorem applied_of_quit {q : Packet} (h : decodeCommand q = some .quit) (s : State) :
    applied q s = s.withQuit true :=
  (Host.Outcome.next.inj (exec_of_decodeCommand h s)).symm

/-- Once `quit` is 1 the drain leaves the rest of the channel unapplied (R120). -/
theorem drainFrom_of_quit {s : State} (h : s.quit = true) (l : List Packet) :
    drainFrom l s = s.withChan l := by
  cases l with
  | nil => rfl
  | cons p ps => simp [drainFrom, h]

theorem drainFrom_cons {s : State} (h : s.quit = false) (p : Packet) (ps : List Packet) :
    drainFrom (p :: ps) s = drainFrom ps (applied p s) := by
  simp [drainFrom, h]

theorem applied_quit_of_ne {p : Packet} {s : State} (hq : s.quit = false)
    (hp : decodeCommand p ≠ some .quit) : (applied p s).quit = false := by
  simp [applied_quit, hq, hp]

/-- Commands that are no QUIT leave `quit` at 0, and the drain applies them in order and goes on with
what stands behind them (R112). -/
theorem drainFrom_append (l : List Packet) : ∀ (before : List Packet) (s : State), s.quit = false →
    (∀ p ∈ before, decodeCommand p ≠ some .quit) →
    (before.foldl (fun t p => applied p t) s).quit = false ∧
    drainFrom (before ++ l) s = drainFrom l (before.foldl (fun t p => applied p t) s)
  | [], _, hq, _ => ⟨hq, rfl⟩
  | p :: ps, s, hq, hno => by
    obtain ⟨hp, hps⟩ := List.forall_mem_cons.mp hno
    rw [List.cons_append, drainFrom_cons hq]
    exact drainFrom_append l ps (applied p s) (applied_quit_of_ne hq hp) hps

/-- Settles O51: the drain goes through the commands before the QUIT; the QUIT sets `quit`, and that
ends the drain. -/
theorem drainInArrivalOrderUntilQuit : Obligations.DrainInArrivalOrderUntilQuit := by
  intro s before after q hq hno hquit
  refine ⟨fun hc => ?_, fun hc => ?_⟩
  · obtain ⟨-, hdrain⟩ := drainFrom_append [] before s hq hno
    rw [drain, hc, ← List.append_nil before, hdrain, List.append_nil]
    rfl
  · obtain ⟨hq', hdrain⟩ := drainFrom_append (q :: after) before s hq hno
    rw [drain, hc, hdrain, drainFrom_cons hq', applied_of_quit hquit, drainFrom_of_quit rfl]
    rfl

/-! A POST (R111). -/

theorem collaborate_of_no_command {a : Action} {s : State}
    (h : actionCommand s.ovrCopy a = none) : collaborate a s = s := by
  simp only [collaborate, h]

/-- After QUIT was posted the collaborator posts nothing more (R111, R120). -/
theorem collaborate_of_quitPosted (a : Action) {s : State} (h : quitPosted s = true) :
    collaborate a s = s := by
  obtain hsame | ⟨p, -, hno, -⟩ := collaborate_cases a s
  · exact hsame
  · simp [h] at hno

theorem collaborate_of_command {a : Action} {s : State} {p : Packet}
    (h : actionCommand s.ovrCopy a = some p) (hq : quitPosted s = false) :
    collaborate a s = post p s := by
  simp [collaborate, h, hq]

/-- Settles O47: the act has a command to post and may post it, or it changes nothing. -/
theorem postTouchesOnlyTheChannel : Obligations.PostTouchesOnlyTheChannel := by
  intro s a rest hev
  have hstep {t : State} (h : collaborate a (s.withInput rest) = t) : step s = .next t :=
    h ▸ step_of_act s a rest hev
  cases hc : actionCommand s.ovrCopy a with
  | none => exact .inr ⟨.inl rfl, hstep (collaborate_of_no_command hc)⟩
  | some p =>
    cases hq : quitPosted s with
    | true => exact .inr ⟨.inr rfl, hstep (collaborate_of_quitPosted a hq)⟩
    | false => exact .inl ⟨p, rfl, rfl, hstep (collaborate_of_command hc hq)⟩

end Sys2Proof.Machine
end

section
/-! SUPPORT. The cycle operations and the whole system's step (45_cycle_operations.md): what a step
after QUIT keeps, the infinite run of a state, a HOLD among other cycles, the pulse pattern of a
window, and the steps of a system tick, then the settled statements O60, O6 to O8, O46, O13, O28,
O44, O52 and O53. -/

namespace Sys2Proof.Machine

/-! A run after QUIT (R120, R136). -/

/-- From `s` to `t` nothing that QUIT freezes has changed, and `quit` stands. -/
structure FrozenByQuit (s t : State) : Prop where
  quit : t.quit = true
  src : t.src = s.src
  ampSel : t.ampSel = s.ampSel
  chan : t.chan = s.chan
  frame : t.core.frame = s.core.frame
  lbV : t.core.lbV = s.core.lbV
  lbB : t.core.lbB = s.core.lbB
  opCode : t.core.opCode = s.core.opCode

theorem FrozenByQuit.refl {s : State} (hq : s.quit = true) : FrozenByQuit s s :=
  ⟨hq, rfl, rfl, rfl, rfl, rfl, rfl, rfl⟩

theorem FrozenByQuit.trans {s t u : State} (h : FrozenByQuit s t) (k : FrozenByQuit t u) :
    FrozenByQuit s u :=
  ⟨k.quit, k.src.trans h.src, k.ampSel.trans h.ampSel, k.chan.trans h.chan, k.frame.trans h.frame,
    k.lbV.trans h.lbV, k.lbB.trans h.lbB, k.opCode.trans h.opCode⟩

/-- What a step adds to the intensity stream (`stream_succ`). -/
def stepEmits (s t : State) : List OpacityCode :=
  if servesCycle s && t.core.opStb then [t.core.opCode] else []

theorem stream_succ {s t : State} (h : step s = .next t) (k : Nat) :
    stream (k + 1) s = stepEmits s t ++ stream k t := by
  simp only [stream, h, stepEmits]

/-- A POST emits nothing, whatever the strobe shows. -/
theorem stepEmits_of_act {s : State} {a : Action} {rest : Schedule}
    (h : nextEvent s = (.act a, rest)) (t : State) : stepEmits s t = [] := by
  simp [stepEmits, servesCycle, h]

/-- A cycle that leaves the strobe at 0 emits nothing. -/
theorem stepEmits_of_no_strobe (s : State) {t : State} (h : t.core.opStb = false) :
    stepEmits s t = [] := by
  simp [stepEmits, h]

/-- After QUIT an act that neither resets nor bypasses the companion is an act of the collaborator
without effect or a HOLD. -/
theorem step_after_quit {s : State} (hq : s.quit = true)
    (hfree : resetsOrBypasses (nextEvent s).1 = false) :
    ∃ t, step s = .next t ∧ FrozenByQuit s t ∧ stepEmits s t = [] := by
  obtain ⟨e, rest, hev⟩ : ∃ e rest, nextEvent s = (e, rest) := ⟨_, _, rfl⟩
  rw [hev] at hfree
  cases e with
  | act a =>
    have hposted : quitPosted (s.withInput rest) = true := by simp [quitPosted, hq]
    refine ⟨s.withInput rest, ?_, ⟨hq, rfl, rfl, rfl, rfl, rfl, rfl, rfl⟩, stepEmits_of_act hev _⟩
    rw [step_of_act s a rest hev, collaborate_of_quitPosted a hposted]
  | pins w => exact absurd hfree Bool.true_eq_false_eq_False
  | clock r k =>
    obtain rfl : r = false := hfree
    refine ⟨(s.withInput rest).withCore (coreHold s.core), ?_,
      ⟨hq, rfl, rfl, rfl, rfl, rfl, rfl, rfl⟩, stepEmits_of_no_strobe s rfl⟩
    rw [step_of_clock s false k rest hev, clockCycle_hold k rest s (.inr hq)]

/-- The run from a state with `quit` = 1, whose acts neither reset nor bypass the companion, emits
nothing and keeps what QUIT freezes. -/
theorem run_after_quit (k : Nat) {s : State} (hq : s.quit = true)
    (hfree : ∀ j < k, ∀ u : State, Host.Core.run Sys2Proof.core j s = .next u →
      resetsOrBypasses (nextEvent u).1 = false) :
    stream k s = [] ∧ ∃ t, Host.Core.run Sys2Proof.core k s = .next t ∧ FrozenByQuit s t := by
  induction k generalizing s with
  | zero => exact ⟨rfl, s, rfl, .refl hq⟩
  | succ k ih =>
    obtain ⟨t, hstep, hfrozen, hemit⟩ := step_after_quit hq (hfree 0 k.succ_pos s rfl)
    obtain ⟨hstream, u, hrun, hrest⟩ := ih hfrozen.quit fun j hj u hu =>
      hfree (j + 1) (Nat.succ_lt_succ hj) u ((run_of_step j s t hstep).trans hu)
    refine ⟨?_, u, (run_of_step k s t hstep).trans hrun, hfrozen.trans hrest⟩
    rw [stream_succ hstep, hemit, hstream, List.nil_append]

/-- Settles O60: the run's frozen state, field by field. -/
theorem quitIsTerminal : Obligations.QuitIsTerminal := by
  intro k s hq hfree
  obtain ⟨hstream, t, hrun, ht⟩ := run_after_quit k hq hfree
  exact ⟨hstream, t, hrun, ht.quit, ht.src, ht.ampSel, ht.chan, ht.frame, ht.lbV, ht.lbB, ht.opCode⟩

/-! One cycle operation: the whole next state (R130 to R132, R136, R137). -/

/-- Settles O6: RST writes the reset registers and takes no bit. -/
theorem rstNextState : Obligations.RstNextState := fun t v b a s =>
  ⟨rfl, by rw [srcTake_packStimulus]; rfl⟩

/-- Settles O7: HOLD writes the strobe alone and takes no bit. -/
theorem holdNextState : Obligations.HoldNextState := fun v b a s =>
  ⟨exec_hold v b a s, by rw [srcTake_packStimulus]; rfl⟩

theorem isCap_eq_decide (p : Phase) : isCap p = decide (p.toNat % 12 = 0) := rfl

/-- The pulse function in the arithmetic of R96. -/
theorem pulse_eq_decide (v b : Bit) (p : Phase) :
    pulse v b p =
      (v && decide ((b = false ∧ p.toNat % 4 = 1) ∨ (b = true ∧ p.toNat % 3 = 2))) := by
  cases v with
  | false => rfl
  | true => cases b <;> simp [Bool.beq_eq_decide_eq]

/-- Settles O8: the successor phase, the capture and the pulse in the rule's own arithmetic. -/
theorem tickNextState : Obligations.TickNextState := by
  intro v b a s p lv lb pl
  have hp : next60 s.core.frame = p := rfl
  have hpl : pulse lv lb p = pl := pulse_eq_decide lv lb p
  have hcore : coreTick v b a s.core =
      { frame := p, lbV := lv, lbB := lb, opCode := opacityCode pl a, opStb := true } := by
    rw [← hpl]
    simp only [coreTick, hp, isCap_eq_true]
    rfl
  refine ⟨?_, ?_⟩
  · rw [exec_tick, hcore]; rfl
  · rw [srcTake_packStimulus, hp, isCap_eq_decide]; rfl

/-- Settles O46: such a cycle of the system is the core's HOLD. -/
theorem sysHoldState : Obligations.SysHoldState := by
  intro s tick rest hev hhold
  rw [step_of_clock s false tick rest hev, clockCycle_hold tick rest s hhold]
  rfl

/-! A HOLD among other cycles (R131). -/

/-- After a HOLD the cycles emit and take what they would without it, since the strobe that HOLD
clears is never read back. -/
theorem coreStream_takes_cons_hold (prm : Config.Params) {h : Stimulus} (after : List Stimulus)
    (c : CoreRegs) (hr : Stimulus.rst h = false) (ht : Stimulus.tick h = false) :
    coreStream prm (h :: after) c = coreStream prm after c ∧
    (coreTakes prm (h :: after) c).count true = (coreTakes prm after c).count true := by
  obtain ⟨htakes, hstream, -⟩ :=
    outputRegistersNeverReadBack prm after (coreHold c) c rfl rfl rfl
  rw [coreStream_cons, count_coreTakes_cons, coreStep_of_hold prm c h hr ht, srcTake_of_hold c ht,
    htakes, hstream]
  exact ⟨rfl, rfl⟩

/-- Settles O13, by induction on the cycles before the HOLD. -/
theorem holdsDoNotChangeTheStream : Obligations.HoldsDoNotChangeTheStream := by
  intro prm before after h c hr ht
  induction before generalizing c with
  | nil => exact coreStream_takes_cons_hold prm after c hr ht
  | cons w ws ih =>
    obtain ⟨hstream, htakes⟩ := ih (coreStep prm c w).1
    simp only [List.cons_append, coreStream_cons, count_coreTakes_cons, hstream, htakes, and_self]

/-! The pulse pattern of a window (R134). -/

/-- The pulses of a window by offset, for the latch pair `(v, b)` that governs it. -/
def windowPattern (v b : Bit) : List Bit := if v then windowRow b else List.replicate 12 false

/-- A canonical latch pair governs its window as the pins it was captured from (R14). -/
theorem windowPattern_captured (v b : Bit) : windowPattern v (v && b) = windowPattern v b := by
  cases v <;> rfl

theorem windowPattern_getElem? (v b : Bit) {p : Phase} (hp : p.toNat ≤ 59) :
    (windowPattern v b)[p.toNat % 12]? = some (pulse v b p) := by
  cases v with
  | false =>
    have hlt : p.toNat % 12 < 12 := Nat.mod_lt _ (by decide)
    exact List.getElem?_replicate_of_lt hlt
  | true => exact (windowTableIsThePulse b p hp).1

/-- The pattern from the offset of a phase on begins with the pulse at that phase. -/
theorem windowPattern_drop (v b : Bit) {p : Phase} (hp : p.toNat ≤ 59) :
    (windowPattern v b).drop (p.toNat % 12) =
      pulse v b p :: (windowPattern v b).drop (p.toNat % 12 + 1) := by
  obtain ⟨hlt, hget⟩ := List.getElem?_eq_some_iff.mp (windowPattern_getElem? v b hp)
  rw [List.drop_eq_getElem_cons hlt, hget]

/-- The `amp_sel` pins of the TICK cycles among `ws`, in order. -/
def tickAmps (ws : List Stimulus) : List Bit :=
  (ws.filter (fun y => Stimulus.tick y)).map (fun y => Stimulus.ampSel y)

theorem tickAmps_cons_tick {w : Stimulus} (ht : Stimulus.tick w = true) (ws : List Stimulus) :
    tickAmps (w :: ws) = Stimulus.ampSel w :: tickAmps ws := by
  simp [tickAmps, ht]

theorem tickAmps_cons_hold {w : Stimulus} (ht : Stimulus.tick w = false) (ws : List Stimulus) :
    tickAmps (w :: ws) = tickAmps ws := by
  simp [tickAmps, ht]

theorem emitted_coreTick (v b a : Bit) (c : CoreRegs) :
    emitted (coreTick v b a c) =
      [opacityCode (pulse (coreTick v b a c).lbV (coreTick v b a c).lbB (next60 c.frame)) a] := rfl

/-- Cycles that do not leave the window in progress emit its pattern from the next offset on, each
TICK with its own amplitude. -/
theorem coreStream_in_window (prm : Config.Params) (ws : List Stimulus) (c : CoreRegs)
    (hle : c.frame.toNat ≤ 59) (hws : ws.all noReset = true)
    (hin : c.frame.toNat % 12 + tickCount ws ≤ 11) :
    coreStream prm ws c =
      List.zipWith opacityCode ((windowPattern c.lbV c.lbB).drop (c.frame.toNat % 12 + 1))
        (tickAmps ws) := by
  induction ws generalizing c with
  | nil => exact List.zipWith_nil_right.symm
  | cons w ws ih =>
    rw [List.all_cons, Bool.and_eq_true, noReset_iff] at hws
    obtain ⟨hr, hws⟩ := hws
    rw [tickCount_cons] at hin
    cases ht : Stimulus.tick w with
    | true =>
      rw [ht, if_pos rfl] at hin
      have hphase : (next60 c.frame).toNat = c.frame.toNat + 1 := next60_toNat_of_lt (by omega)
      have hoff : (next60 c.frame).toNat % 12 = c.frame.toNat % 12 + 1 := by omega
      have hcap : isCap (next60 c.frame) = false := (isCap_eq_false _).mpr (by omega)
      obtain ⟨hv, hb, -⟩ := coreTick_latch_code_of_not_capture (Stimulus.srcValid w)
        (Stimulus.srcBit w) (Stimulus.ampSel w) hcap
      have hrest := ih (coreTick (Stimulus.srcValid w) (Stimulus.srcBit w) (Stimulus.ampSel w) c)
        (next60_le c.frame) hws (by rw [coreTick_frame]; omega)
      rw [coreStream_cons, coreStep_of_tick prm c w hr ht, hrest, emitted_coreTick, hv, hb,
        coreTick_frame, tickAmps_cons_tick ht, ← hoff, windowPattern_drop _ _ (next60_le c.frame)]
      rfl
    | false =>
      rw [ht] at hin
      rw [(coreStream_takes_cons_hold prm ws c hr ht).1, tickAmps_cons_hold ht]
      exact ih c hle hws hin

/-- A capturing TICK, and cycles that do not leave its window, emit the pattern of the captured
pins. -/
theorem coreStream_of_capture (prm : Config.Params) {c : CoreRegs} {w : Stimulus}
    {ws : List Stimulus} (hr : Stimulus.rst w = false) (ht : Stimulus.tick w = true)
    (hcap : (next60 c.frame).toNat % 12 = 0) (hws : ws.all noReset = true)
    (hn : tickCount ws ≤ 11) :
    coreStream prm (w :: ws) c =
      List.zipWith opacityCode (windowPattern (Stimulus.srcValid w) (Stimulus.srcBit w))
        (tickAmps (w :: ws)) := by
  have hle := next60_le c.frame
  have hrest := coreStream_in_window prm ws
    (coreTick (Stimulus.srcValid w) (Stimulus.srcBit w) (Stimulus.ampSel w) c) hle hws
    (by rw [coreTick_frame]; omega)
  have hpattern := windowPattern_drop (Stimulus.srcValid w)
    (Stimulus.srcValid w && Stimulus.srcBit w) hle
  rw [windowPattern_captured, hcap, List.drop_zero] at hpattern
  rw [coreStream_cons, coreStep_of_tick prm c w hr ht, hrest, emitted_coreTick, coreTick_lbV,
    coreTick_lbB, coreTick_frame, if_pos ((isCap_eq_true _).mpr hcap),
    if_pos ((isCap_eq_true _).mpr hcap), windowPattern_captured, hcap, tickAmps_cons_tick ht,
    hpattern]
  rfl

/-- Settles O28: the window's pattern, and the counter 12 phases after the capture. -/
theorem windowStream : Obligations.WindowStream := by
  intro prm c w x ws htake hws hn
  obtain ⟨hr, ht, hcap⟩ := (srcTake_eq_true_iff w c).mp htake
  refine ⟨coreStream_of_capture prm hr ht hcap hws hn.le, fun hxr hxt => ?_⟩
  have hend : (coreRun prm (w :: ws) c).frame.toNat = ((next60 c.frame).toNat + 11) % 60 := by
    rw [coreRun, coreStep_of_tick prm c w hr ht, ← hn]
    exact phaseAfterTicks prm ws _ (next60_le c.frame) hws
  refine (srcTake_eq_true_iff x _).mpr ⟨hxr, hxt, ?_⟩
  rw [next60_toNat_mod (by omega), hend]
  omega

/-! The infinite run of a state (R133, R139). -/

/-- The state one step reaches (`step_eq_nextState`: there always is one). -/
def nextState (s : State) : State :=
  match step s with
  | .next t => t
  | .fault _ => s
  | .refused _ => s

theorem step_eq_nextState (s : State) : step s = .next (nextState s) := by
  obtain ⟨t, ht⟩ := step_answers s
  simp only [nextState, ht]

theorem isRun_iff (σ : Nat → State) : IsRun σ ↔ ∀ n, σ (n + 1) = nextState (σ n) := by
  simp only [IsRun, step_eq_nextState, Host.Outcome.next.injEq, eq_comm]

theorem isRun_iterate (s : State) : IsRun fun n => nextState^[n] s :=
  (isRun_iff _).mpr fun n => Function.iterate_succ_apply' nextState n s

/-- A run is the iteration of the step from its first state. -/
theorem IsRun.eq_iterate {σ : Nat → State} (h : IsRun σ) (n : Nat) : σ n = nextState^[n] (σ 0) := by
  induction n with
  | zero => rfl
  | succ n ih => rw [(isRun_iff σ).mp h n, ih, Function.iterate_succ_apply']

/-- Settles O44: the run iterates the step, and every run from the state does. -/
theorem stepAlwaysAnswers : Obligations.StepAlwaysAnswers := by
  refine ⟨step_answers, fun s => ⟨fun n => nextState^[n] s, ⟨rfl, isRun_iterate s⟩, ?_⟩⟩
  rintro σ ⟨rfl, hrun⟩
  exact funext hrun.eq_iterate

/-! The steps of a system tick (R112, R135). -/

/-- The drain reads neither the core nor the schedule, and leaves a channel of its own. -/
theorem drainFrom_with (l : List Packet) (s : State) (c : CoreRegs) (q : List Packet)
    (i : Schedule) :
    drainFrom l (((s.withCore c).withChan q).withInput i) =
      ((drainFrom l s).withCore c).withInput i := by
  induction l generalizing s with
  | nil => rfl
  | cons p ps ih =>
    cases hq : s.quit with
    | true => rw [drainFrom_of_quit hq, drainFrom_of_quit (by exact hq)]; rfl
    | false =>
      rw [drainFrom_cons hq, drainFrom_cons (by exact hq), applied_withInput, applied_withChan,
        applied_withCore, ih]

theorem drainFrom_core (l : List Packet) (s : State) : (drainFrom l s).core = s.core := by
  induction l generalizing s with
  | nil => rfl
  | cons p ps ih =>
    cases hq : s.quit with
    | true => rw [drainFrom_of_quit hq]; rfl
    | false => rw [drainFrom_cons hq, ih, applied_core]

theorem consumeIf_withInput (b : Bit) (d : State) (i : Schedule) :
    consumeIf b (d.withInput i) = (consumeIf b d).withInput i := by
  cases b <;> rfl

/-- The frame of a system tick is the same whether or not the core saw HOLD before it, and does not
read the schedule. -/
theorem tickAfterDrain_held (d : State) (i : Schedule) :
    tickAfterDrain ((d.withCore (coreHold d.core)).withInput i) =
      (tickAfterDrain d).withInput i := by
  cases hq : d.quit with
  | true => simp only [tickAfterDrain, State.withInput_quit, State.withCore_quit, hq, if_true]; rfl
  | false => rw [tickAfterDrain_eq hq, tickAfterDrain_eq (by exact hq), ← consumeIf_withInput]; rfl

/-- The state in which a system tick has applied the first command `p` of the channel and goes on
with the rest `ps`. -/
def afterFirstCommand (p : Packet) (ps : List Packet) (rest : Schedule) (s : State) : State :=
  applied p (((s.withCore (coreHold s.core)).withChan ps).withInput
    (putFirst (.clock false true) rest))

section
variable {s : State} {p : Packet} {ps : List Packet} {rest : Schedule}

theorem step_of_first_command (hev : nextEvent s = (.clock false true, rest))
    (hq : s.quit = false) (hc : s.chan = p :: ps) :
    step s = .next (afterFirstCommand p ps rest s) := by
  rw [step_of_drain hev hq hc, applyCommand_eq, afterFirstCommand]

/-- The tick stays the next act until it is finished. -/
theorem nextEvent_afterFirstCommand :
    nextEvent (afterFirstCommand p ps rest s) = (.clock false true, rest) := by
  rw [afterFirstCommand, applied_withInput, nextEvent_clock]

theorem afterFirstCommand_chan : (afterFirstCommand p ps rest s).chan = ps := applied_chan p _

theorem afterFirstCommand_quit (hq : s.quit = false) :
    (afterFirstCommand p ps rest s).quit = (decodeCommand p == some .quit) := by
  simp [afterFirstCommand, applied_quit, hq]

/-- What is left of the system tick makes the state of the whole one. -/
theorem sysTick_afterFirstCommand (hq : s.quit = false) (hc : s.chan = p :: ps) :
    (sysTick (afterFirstCommand p ps rest s)).withInput rest = (sysTick s).withInput rest := by
  have hwhole : drain s = drainFrom ps (applied p s) := by rw [drain, hc, drainFrom_cons hq]
  have hrest : drain (afterFirstCommand p ps rest s) =
      ((drain s).withCore (coreHold (drain s).core)).withInput
        (putFirst (.clock false true) rest) := by
    rw [drain, afterFirstCommand_chan, afterFirstCommand, applied_withInput, applied_withChan,
      applied_withCore, drainFrom_with, hwhole, drainFrom_core, applied_core]
  rw [sysTick, hrest, tickAfterDrain_held, State.withInput_twice, sysTick]

end

/-- How many commands the drain of a system tick applies. -/
def drainSteps (s : State) : Nat := if s.quit then 0 else drainLength s.chan

theorem drainSteps_of_first_command {s : State} {p : Packet} {ps : List Packet}
    (rest : Schedule) (hq : s.quit = false) (hc : s.chan = p :: ps) :
    drainSteps s = drainSteps (afterFirstCommand p ps rest s) + 1 := by
  rw [drainSteps, drainSteps, afterFirstCommand_chan, afterFirstCommand_quit hq, hq, hc]
  by_cases hp : decodeCommand p = some .quit <;> simp [drainLength, hp]

theorem sysTick_of_quit {s : State} (hq : s.quit = true) :
    sysTick s = s.withCore (coreHold s.core) := by
  rw [sysTick, drain, drainFrom_of_quit hq, State.withChan_self, tickAfterDrain, if_pos hq]

theorem sysTick_of_empty {s : State} (hc : s.chan = []) : sysTick s = tickAfterDrain s := by
  have hdrain : drain s = s := by rw [drain, hc, drainFrom, ← hc, State.withChan_self]
  rw [sysTick, hdrain]

/-- With nothing to drain the system tick is one step. -/
theorem run_sysTick_of_no_drain {s : State} {rest : Schedule}
    (hev : nextEvent s = (.clock false true, rest)) (hlast : s.quit = true ∨ s.chan = []) :
    Host.Core.run Sys2Proof.core (drainSteps s + 1) s = .next ((sysTick s).withInput rest) := by
  have hsteps : drainSteps s = 0 := by obtain h | h := hlast <;> simp [drainSteps, h, drainLength]
  have hstep : step s = .next ((sysTick s).withInput rest) := by
    cases hq : s.quit with
    | true =>
      rw [step_of_clock s false true rest hev, clockCycle_hold true rest s (.inr hq),
        sysTick_of_quit hq]
      rfl
    | false =>
      have hc : s.chan = [] := hlast.resolve_left (by simp [hq])
      rw [step_of_frame hev hq hc, sysTick_of_empty hc]
  rw [hsteps, run_of_step 0 s _ hstep]
  rfl

/-- A system tick with the channel `l` takes one step per command it drains, and one more. -/
theorem run_sysTick (l : List Packet) {s : State} {rest : Schedule}
    (hev : nextEvent s = (.clock false true, rest)) (hc : s.chan = l) :
    Host.Core.run Sys2Proof.core (drainSteps s + 1) s = .next ((sysTick s).withInput rest) := by
  induction l generalizing s with
  | nil => exact run_sysTick_of_no_drain hev (.inr hc)
  | cons p ps ih =>
    cases hq : s.quit with
    | true => exact run_sysTick_of_no_drain hev (.inl hq)
    | false =>
      rw [drainSteps_of_first_command rest hq hc,
        run_of_step _ s _ (step_of_first_command hev hq hc),
        ih nextEvent_afterFirstCommand afterFirstCommand_chan, sysTick_afterFirstCommand hq hc]

/-- Settles O52: the steps of the tick, for the channel as it stands. -/
theorem sysTickIsOneTransition : Obligations.SysTickIsOneTransition :=
  fun s _ hev => run_sysTick s.chan hev rfl

/-! A word drained at a capturing tick (R40, R135). -/

/-- ENQW's header enqueues the text and does nothing else (R117). -/
theorem applied_enqw (text : List Nat) (s : State) :
    applied ⟨0b0110#4, text⟩ s = s.withSrc (enqueueWord s.params.queueDepth text s.src) := by
  have hd : decodeCommand ⟨0b0110#4, text⟩ = some (.enqw text) := decode_encode (.enqw text)
  exact (Host.Outcome.next.inj (exec_of_decodeCommand hd s)).symm

/-- A capturing frame with the queue as the source latches the front bit and leaves the others (R73,
R87). -/
theorem tickAfterDrain_captures_front {d : State} {b : Bit} {q : List Bit} (hq : d.quit = false)
    (ho : overrideOf d.src = none) (hn : d.src.berRem = 0) (hqueue : d.src.queue = b :: q)
    (hcap : (next60 d.core.frame).toNat % 12 = 0) :
    (tickAfterDrain d).core.lbV = true ∧ (tickAfterDrain d).core.lbB = b ∧
    (tickAfterDrain d).src.queue = q ∧ (tickAfterDrain d).chan = d.chan := by
  have hv : d.src.ovrV = false := (overrideOf_eq_none d.src).mp ho
  have hiscap : isCap (next60 d.core.frame) = true := (isCap_eq_true _).mpr hcap
  have hpeek : peek d.src = some b := by rw [peek_of_queue d.src hv hn, hqueue, List.head?_cons]
  obtain ⟨hcore, hsrc, -, hchan, -⟩ := tickAfterDrain_fields d hq
  rw [hcore, hsrc, hchan, coreTick_lbV, coreTick_lbB, if_pos hiscap, if_pos hiscap, if_pos hiscap,
    hpeek, consume_of_queue d.src hv hn, hqueue]
  exact ⟨rfl, rfl, rfl, rfl⟩

/-- Settles O53: the frame of the tick is made after the drain, and the drained word is the queue.
-/
theorem captureSeesDrainedWord : Obligations.CaptureSeesDrainedWord := by
  intro s c text hq hc hd ho hn hqueue hcodes hcap
  have hacc : textAccepted (c :: text) = true :=
    (textAccepted_iff _).mpr ⟨List.cons_ne_nil c text, hcodes⟩
  have hdrain : drain s =
      (s.withSrc { s.src with queue := wordToBits (c :: text) }).withChan [] := by
    rw [drain_of_single hq hc, applied_enqw, hd, enqueueWord_unbounded hacc, hqueue,
      List.nil_append]
  rw [sysTick, hdrain]
  exact tickAfterDrain_captures_front hq ho hn rfl hcap

end Sys2Proof.Machine
end
